-- ==== Sys2Proof/Word.lean ====
section
/-! DEFINITION. The words of the machine: bytes, 16-bit words, 12-bit address immediates, register and key numbers
(00_scope.md R6, R7). -/

namespace Sys2Proof

/-- One byte: a memory cell, a general register, a timer (20_memory.md R50, 10_state.md R21, R27). -/
abbrev Byte := BitVec 8

/-- Sixteen bits: `pc`, `index`, a stack slot, `opcode` (10_state.md R23 to R26, R31). -/
abbrev Word := BitVec 16

/-- The 12-bit address immediate `nnn` (30_encoding.md R81). -/
abbrev Imm12 := BitVec 12

/-- A register number: the 4-bit fields `x` and `y`; every value names a register (10_state.md R21). -/
abbrev RegNo := Fin 16

/-- A key index of the 16-key latch (10_state.md R28). -/
abbrev KeyNo := Fin 16

/-- `VF`, register 15, which doubles as the flag (10_state.md R22). -/
abbrev regF : RegNo := 15

/-- The framebuffer: `video[py][px]`, 32 rows of 64 pixels, `true` is on (10_state.md R29). -/
abbrev Video := Vector (Vector Bool 64) 32

end Sys2Proof
end

