-- ==== Sys2Proof/Syntax.lean ====
section
/-! DEFINITION. The 34 instructions, one constructor per row of spec/opcode_table.json (30_encoding.md R86). Bits the
decoder does not examine (R88) are no operand. -/

namespace Sys2Proof

/-- An instruction with its operands: `x`, `y` register numbers, `kk` a byte, `n` a count 0..15, `nnn` a 12-bit
address (30_encoding.md R81, R83). -/
inductive Instr where
  /-- 00E0 `CLS` (43_display.md R150). -/
  | cls
  /-- 00EE `RET` (40_control_flow.md R100). -/
  | ret
  /-- 1nnn `JP nnn` (40_control_flow.md R101). -/
  | jp (nnn : Imm12)
  /-- 2nnn `CALL nnn` (40_control_flow.md R102). -/
  | call (nnn : Imm12)
  /-- 3xkk `SE Vx, kk` (40_control_flow.md R103). -/
  | seKk (x : RegNo) (kk : Byte)
  /-- 4xkk `SNE Vx, kk` (40_control_flow.md R104). -/
  | sneKk (x : RegNo) (kk : Byte)
  /-- 5xy0 `SE Vx, Vy` (40_control_flow.md R105). -/
  | seVy (x y : RegNo)
  /-- 6xkk `LD Vx, kk` (41_load_alu.md R120). -/
  | ldKk (x : RegNo) (kk : Byte)
  /-- 7xkk `ADD Vx, kk` (41_load_alu.md R121). -/
  | addKk (x : RegNo) (kk : Byte)
  /-- 8xy0 `LD Vx, Vy` (41_load_alu.md R122). -/
  | ldVy (x y : RegNo)
  /-- 8xy1 `OR Vx, Vy` (41_load_alu.md R123). -/
  | orVy (x y : RegNo)
  /-- 8xy2 `AND Vx, Vy` (41_load_alu.md R124). -/
  | andVy (x y : RegNo)
  /-- 8xy3 `XOR Vx, Vy` (41_load_alu.md R125). -/
  | xorVy (x y : RegNo)
  /-- 8xy4 `ADD Vx, Vy` (41_load_alu.md R126). -/
  | addVy (x y : RegNo)
  /-- 8xy5 `SUB Vx, Vy` (41_load_alu.md R127). -/
  | subVy (x y : RegNo)
  /-- 8xy6 `SHR Vx` (41_load_alu.md R128). -/
  | shr (x : RegNo)
  /-- 8xy7 `SUBN Vx, Vy` (41_load_alu.md R129). -/
  | subnVy (x y : RegNo)
  /-- 8xyE `SHL Vx` (41_load_alu.md R130). -/
  | shl (x : RegNo)
  /-- 9xy0 `SNE Vx, Vy` (40_control_flow.md R106). -/
  | sneVy (x y : RegNo)
  /-- Annn `LD I, nnn` (42_index_memory.md R140). -/
  | ldI (nnn : Imm12)
  /-- Bnnn `JP V0, nnn` (40_control_flow.md R107). -/
  | jpV0 (nnn : Imm12)
  /-- Cxkk `RND Vx, kk` (44_keypad_timers_entropy.md R166). -/
  | rnd (x : RegNo) (kk : Byte)
  /-- Dxyn `DRW Vx, Vy, n` (43_display.md R151). -/
  | drw (x y : RegNo) (n : Fin 16)
  /-- Ex9E `SKP Vx` (44_keypad_timers_entropy.md R160). -/
  | skp (x : RegNo)
  /-- ExA1 `SKNP Vx` (44_keypad_timers_entropy.md R161). -/
  | sknp (x : RegNo)
  /-- Fx07 `LD Vx, DT` (44_keypad_timers_entropy.md R162). -/
  | ldVxDt (x : RegNo)
  /-- Fx0A `LD Vx, K` (44_keypad_timers_entropy.md R163). -/
  | ldVxK (x : RegNo)
  /-- Fx15 `LD DT, Vx` (44_keypad_timers_entropy.md R164). -/
  | ldDtVx (x : RegNo)
  /-- Fx18 `LD ST, Vx` (44_keypad_timers_entropy.md R165). -/
  | ldStVx (x : RegNo)
  /-- Fx1E `ADD I, Vx` (42_index_memory.md R141). -/
  | addI (x : RegNo)
  /-- Fx29 `LD F, Vx` (42_index_memory.md R142). -/
  | ldF (x : RegNo)
  /-- Fx33 `LD B, Vx` (42_index_memory.md R143). -/
  | ldB (x : RegNo)
  /-- Fx55 `LD [I], Vx` (42_index_memory.md R144). -/
  | storeRegs (x : RegNo)
  /-- Fx65 `LD Vx, [I]` (42_index_memory.md R145). -/
  | loadRegs (x : RegNo)
  deriving DecidableEq, Repr

end Sys2Proof
end

