-- ==== Sys2Proof/Decode.lean ====
section
/-! DEFINITION. The decoder (30_encoding.md R80 to R89), total on any bytes, and the encoder written from the same
table. -/

namespace Sys2Proof

/-! ## Fields (R81) -/

/-- `fam`, bits 15:12, the dispatch key. -/
def fieldFam (w : Word) : BitVec 4 := w.extractLsb' 12 4

/-- `x`, bits 11:8. -/
def fieldX (w : Word) : RegNo := ⟨(w.extractLsb' 8 4).toNat, (w.extractLsb' 8 4).isLt⟩

/-- `y`, bits 7:4. -/
def fieldY (w : Word) : RegNo := ⟨(w.extractLsb' 4 4).toNat, (w.extractLsb' 4 4).isLt⟩

/-- `n`, bits 3:0. -/
def fieldN (w : Word) : Fin 16 := ⟨(w.extractLsb' 0 4).toNat, (w.extractLsb' 0 4).isLt⟩

/-- `kk`, bits 7:0. -/
def fieldKk (w : Word) : Byte := w.extractLsb' 0 8

/-- `nnn`, bits 11:0. -/
def fieldNnn (w : Word) : Imm12 := w.extractLsb' 0 12

/-! ## The decoder -/

/-- Why the decoder gives no instruction. -/
inductive DecodeError where
  /-- Fewer than the two bytes of an instruction (R80); the fetch always gives two. -/
  | truncated
  /-- The word matches no row of the opcode map (R89). -/
  | unknownOpcode (w : Word)
  deriving DecidableEq, Repr

/-- Big-endian: the byte at the lower address stands in bits 15..8 (20_memory.md R56). -/
def bigEndian (hi lo : Byte) : Word := hi ++ lo

/-- Family 0x0: resolved by all twelve low bits (R85, decision D3). -/
def decodeFamily0 (w : Word) : Except DecodeError Instr :=
  match (fieldNnn w).toNat with
  | 0x0E0 => .ok .cls
  | 0x0EE => .ok .ret
  | _ => .error (.unknownOpcode w)

/-- Family 0x8: resolved by the low nibble (R85). -/
def decodeFamily8 (w : Word) : Except DecodeError Instr :=
  match (fieldN w).val with
  | 0x0 => .ok (.ldVy (fieldX w) (fieldY w))
  | 0x1 => .ok (.orVy (fieldX w) (fieldY w))
  | 0x2 => .ok (.andVy (fieldX w) (fieldY w))
  | 0x3 => .ok (.xorVy (fieldX w) (fieldY w))
  | 0x4 => .ok (.addVy (fieldX w) (fieldY w))
  | 0x5 => .ok (.subVy (fieldX w) (fieldY w))
  | 0x6 => .ok (.shr (fieldX w))
  | 0x7 => .ok (.subnVy (fieldX w) (fieldY w))
  | 0xE => .ok (.shl (fieldX w))
  | _ => .error (.unknownOpcode w)

/-- Family 0xE: resolved by the low byte (R85, decision D3). -/
def decodeFamilyE (w : Word) : Except DecodeError Instr :=
  match (fieldKk w).toNat with
  | 0x9E => .ok (.skp (fieldX w))
  | 0xA1 => .ok (.sknp (fieldX w))
  | _ => .error (.unknownOpcode w)

/-- Family 0xF: resolved by the low byte (R85, decision D3). -/
def decodeFamilyF (w : Word) : Except DecodeError Instr :=
  match (fieldKk w).toNat with
  | 0x07 => .ok (.ldVxDt (fieldX w))
  | 0x0A => .ok (.ldVxK (fieldX w))
  | 0x15 => .ok (.ldDtVx (fieldX w))
  | 0x18 => .ok (.ldStVx (fieldX w))
  | 0x1E => .ok (.addI (fieldX w))
  | 0x29 => .ok (.ldF (fieldX w))
  | 0x33 => .ok (.ldB (fieldX w))
  | 0x55 => .ok (.storeRegs (fieldX w))
  | 0x65 => .ok (.loadRegs (fieldX w))
  | _ => .error (.unknownOpcode w)

/-- The dispatcher's selection: the high nibble, with nested resolution for the four overloaded families (R84 to R86).
Families 5 and 9 do not examine the low nibble (R88). -/
def decodeWord (w : Word) : Except DecodeError Instr :=
  match (fieldFam w).toNat with
  | 0x0 => decodeFamily0 w
  | 0x1 => .ok (.jp (fieldNnn w))
  | 0x2 => .ok (.call (fieldNnn w))
  | 0x3 => .ok (.seKk (fieldX w) (fieldKk w))
  | 0x4 => .ok (.sneKk (fieldX w) (fieldKk w))
  | 0x5 => .ok (.seVy (fieldX w) (fieldY w))
  | 0x6 => .ok (.ldKk (fieldX w) (fieldKk w))
  | 0x7 => .ok (.addKk (fieldX w) (fieldKk w))
  | 0x8 => decodeFamily8 w
  | 0x9 => .ok (.sneVy (fieldX w) (fieldY w))
  | 0xA => .ok (.ldI (fieldNnn w))
  | 0xB => .ok (.jpV0 (fieldNnn w))
  | 0xC => .ok (.rnd (fieldX w) (fieldKk w))
  | 0xD => .ok (.drw (fieldX w) (fieldY w) (fieldN w))
  | 0xE => decodeFamilyE w
  | 0xF => decodeFamilyF w
  | _ => .error (.unknownOpcode w)

/-- The decoder on bytes in address order: one instruction and the bytes after it (R80). -/
def decode : List Byte → Except DecodeError (Instr × List Byte)
  | hi :: lo :: rest =>
    match decodeWord (bigEndian hi lo) with
    | .ok i => .ok (i, rest)
    | .error e => .error e
  | _ => .error .truncated

/-! ## The encoder -/

/-- Format XK: family, `x`, `kk` (R82). -/
def encodeXK (fam : BitVec 4) (x : RegNo) (kk : Byte) : Word := fam ++ BitVec.ofFin (w := 4) x ++ kk

/-- Formats XY and XYN: family, `x`, `y`, low nibble (R82). -/
def encodeXYN (fam : BitVec 4) (x y : RegNo) (n : BitVec 4) : Word :=
  fam ++ BitVec.ofFin (w := 4) x ++ BitVec.ofFin (w := 4) y ++ n

/-- Format A: family, `nnn` (R82). -/
def encodeA (fam : BitVec 4) (nnn : Imm12) : Word := fam ++ nnn

/-- The word of an instruction, unexamined bits 0 as an assembler emits them (R86, R88, R94). -/
def encode : Instr → Word
  | .cls => 0x00E0
  | .ret => 0x00EE
  | .jp nnn => encodeA 0x1 nnn
  | .call nnn => encodeA 0x2 nnn
  | .seKk x kk => encodeXK 0x3 x kk
  | .sneKk x kk => encodeXK 0x4 x kk
  | .seVy x y => encodeXYN 0x5 x y 0x0
  | .ldKk x kk => encodeXK 0x6 x kk
  | .addKk x kk => encodeXK 0x7 x kk
  | .ldVy x y => encodeXYN 0x8 x y 0x0
  | .orVy x y => encodeXYN 0x8 x y 0x1
  | .andVy x y => encodeXYN 0x8 x y 0x2
  | .xorVy x y => encodeXYN 0x8 x y 0x3
  | .addVy x y => encodeXYN 0x8 x y 0x4
  | .subVy x y => encodeXYN 0x8 x y 0x5
  | .shr x => encodeXYN 0x8 x 0 0x6
  | .subnVy x y => encodeXYN 0x8 x y 0x7
  | .shl x => encodeXYN 0x8 x 0 0xE
  | .sneVy x y => encodeXYN 0x9 x y 0x0
  | .ldI nnn => encodeA 0xA nnn
  | .jpV0 nnn => encodeA 0xB nnn
  | .rnd x kk => encodeXK 0xC x kk
  | .drw x y n => encodeXYN 0xD x y (BitVec.ofFin (w := 4) n)
  | .skp x => encodeXK 0xE x 0x9E
  | .sknp x => encodeXK 0xE x 0xA1
  | .ldVxDt x => encodeXK 0xF x 0x07
  | .ldVxK x => encodeXK 0xF x 0x0A
  | .ldDtVx x => encodeXK 0xF x 0x15
  | .ldStVx x => encodeXK 0xF x 0x18
  | .addI x => encodeXK 0xF x 0x1E
  | .ldF x => encodeXK 0xF x 0x29
  | .ldB x => encodeXK 0xF x 0x33
  | .storeRegs x => encodeXK 0xF x 0x55
  | .loadRegs x => encodeXK 0xF x 0x65

/-- The two bytes of an instruction in address order, high byte first (R80, 20_memory.md R56). -/
def encodeBytes (i : Instr) : List Byte := [(encode i).extractLsb' 8 8, (encode i).extractLsb' 0 8]

/-! ## The opcode map as a table (R86) -/

/-- One row of the opcode map: a word `w` selects the row when `w &&& mask = pattern` (R86). -/
structure OpcodeRow where
  mask : Word
  pattern : Word
  deriving DecidableEq, Repr

/-- The mask and match of an instruction's row (R86). -/
def Instr.row : Instr → OpcodeRow
  | .cls => ⟨0xFFFF, 0x00E0⟩
  | .ret => ⟨0xFFFF, 0x00EE⟩
  | .jp _ => ⟨0xF000, 0x1000⟩
  | .call _ => ⟨0xF000, 0x2000⟩
  | .seKk _ _ => ⟨0xF000, 0x3000⟩
  | .sneKk _ _ => ⟨0xF000, 0x4000⟩
  | .seVy _ _ => ⟨0xF000, 0x5000⟩
  | .ldKk _ _ => ⟨0xF000, 0x6000⟩
  | .addKk _ _ => ⟨0xF000, 0x7000⟩
  | .ldVy _ _ => ⟨0xF00F, 0x8000⟩
  | .orVy _ _ => ⟨0xF00F, 0x8001⟩
  | .andVy _ _ => ⟨0xF00F, 0x8002⟩
  | .xorVy _ _ => ⟨0xF00F, 0x8003⟩
  | .addVy _ _ => ⟨0xF00F, 0x8004⟩
  | .subVy _ _ => ⟨0xF00F, 0x8005⟩
  | .shr _ => ⟨0xF00F, 0x8006⟩
  | .subnVy _ _ => ⟨0xF00F, 0x8007⟩
  | .shl _ => ⟨0xF00F, 0x800E⟩
  | .sneVy _ _ => ⟨0xF000, 0x9000⟩
  | .ldI _ => ⟨0xF000, 0xA000⟩
  | .jpV0 _ => ⟨0xF000, 0xB000⟩
  | .rnd _ _ => ⟨0xF000, 0xC000⟩
  | .drw _ _ _ => ⟨0xF000, 0xD000⟩
  | .skp _ => ⟨0xF0FF, 0xE09E⟩
  | .sknp _ => ⟨0xF0FF, 0xE0A1⟩
  | .ldVxDt _ => ⟨0xF0FF, 0xF007⟩
  | .ldVxK _ => ⟨0xF0FF, 0xF00A⟩
  | .ldDtVx _ => ⟨0xF0FF, 0xF015⟩
  | .ldStVx _ => ⟨0xF0FF, 0xF018⟩
  | .addI _ => ⟨0xF0FF, 0xF01E⟩
  | .ldF _ => ⟨0xF0FF, 0xF029⟩
  | .ldB _ => ⟨0xF0FF, 0xF033⟩
  | .storeRegs _ => ⟨0xF0FF, 0xF055⟩
  | .loadRegs _ => ⟨0xF0FF, 0xF065⟩

/-- The 34 rows of the opcode map, in the order of R86. -/
def opcodeTable : List OpcodeRow :=
  [⟨0xFFFF, 0x00E0⟩, ⟨0xFFFF, 0x00EE⟩, ⟨0xF000, 0x1000⟩, ⟨0xF000, 0x2000⟩, ⟨0xF000, 0x3000⟩, ⟨0xF000, 0x4000⟩,
   ⟨0xF000, 0x5000⟩, ⟨0xF000, 0x6000⟩, ⟨0xF000, 0x7000⟩, ⟨0xF00F, 0x8000⟩, ⟨0xF00F, 0x8001⟩, ⟨0xF00F, 0x8002⟩] ++
  [⟨0xF00F, 0x8003⟩, ⟨0xF00F, 0x8004⟩, ⟨0xF00F, 0x8005⟩, ⟨0xF00F, 0x8006⟩, ⟨0xF00F, 0x8007⟩, ⟨0xF00F, 0x800E⟩,
   ⟨0xF000, 0x9000⟩, ⟨0xF000, 0xA000⟩, ⟨0xF000, 0xB000⟩, ⟨0xF000, 0xC000⟩, ⟨0xF000, 0xD000⟩, ⟨0xF0FF, 0xE09E⟩] ++
  [⟨0xF0FF, 0xE0A1⟩, ⟨0xF0FF, 0xF007⟩, ⟨0xF0FF, 0xF00A⟩, ⟨0xF0FF, 0xF015⟩, ⟨0xF0FF, 0xF018⟩, ⟨0xF0FF, 0xF01E⟩,
   ⟨0xF0FF, 0xF029⟩, ⟨0xF0FF, 0xF033⟩, ⟨0xF0FF, 0xF055⟩, ⟨0xF0FF, 0xF065⟩]

/-! ## The host's table word -/

/-- The instruction the decoder reads from an instruction whose bits are `w` as spec/opcode_table.json numbers them:
one 16-bit word, its bits above `nbits` 0, laid out in memory big-endian (20_memory.md R56). -/
def tableWord (nbits w : Nat) : Word := BitVec.ofNat 16 (w % 2 ^ nbits)

/-- The bytes of a table word in address order. -/
def tableBytes (nbits w : Nat) : List Byte := [(tableWord nbits w).extractLsb' 8 8, (tableWord nbits w).extractLsb' 0 8]

/-- What the decoder reads from a table word; `none` where it refuses. -/
def decodeTableWord (nbits w : Nat) : Option Instr :=
  match decode (tableBytes nbits w) with
  | .ok (i, _) => some i
  | .error _ => none

end Sys2Proof
end

