-- ==== Sys2Proof/Config.lean ====
section
/-! DEFINITION. The configuration of the core (10_state.md R34, 00_scope.md R6), set outside the program before reset
and constant while the core runs, and the free values of the model: constants without a body, of which no proof can
know a value. -/

namespace Sys2Proof

/-- `VF_DEST_POLICY` (00_scope.md R6, 41_load_alu.md R131): which of the two writes of `VF` remains after `SUB`, `SHR`,
`SUBN`, `SHL` with `x = 0xF`. Log 8. -/
inductive VfDestPolicy where
  /-- `flag_wins`, the spec's default: the result is written first, the flag last (R131, decision D9). -/
  | flagWins
  /-- DESIGN CHOICE: the spec's point left open ("the source does not say which of the two writes remains", R131): a
  free choice between the two, where the spec's conservative model refuses. Safe. -/
  | unsettled
  deriving DecidableEq, Repr

/-- `KEYWAIT_MODE` (00_scope.md R6, 44_keypad_timers_entropy.md R163): the key that wait-for-key reports. Log 10. -/
inductive KeywaitMode where
  /-- `level_lowest`, the spec's default: the smallest pressed index (R163, decision D11). -/
  | levelLowest
  /-- The conservative alternative of R163: "any pressed key (a draw among them)". -/
  | levelAny
  deriving DecidableEq, Repr

/-- The configuration: one field per parameter of 10_state.md R34 but `SEED`, which stands in the entropy source. -/
structure Config where
  /-- `QUIRK_ADDI_VF`: whether `ADD I, Vx` writes `VF` (42_index_memory.md R141). -/
  quirkAddiVF : Bool
  /-- `FONT_BASE`, with `FONT_BASE + 80 <= 0x200` (20_memory.md R52; checked in WellFormed). -/
  fontBase : Nat
  /-- The font: 16 glyphs of 5 rows, top row first (20_memory.md R52, R53). -/
  font : Vector (Vector Byte 5) 16
  /-- `ADMIT_UNLISTED4`: whether Fx29, Fx33, Fx55, Fx65 have their meanings (42_index_memory.md R146). -/
  admitUnlisted4 : Bool
  /-- `LOADSTORE_INC_I`: whether Fx55 and Fx65 advance `index` (42_index_memory.md R144, R145). -/
  loadStoreIncI : Bool
  /-- `VF_DEST_POLICY`. -/
  vfDestPolicy : VfDestPolicy
  /-- `KEYWAIT_MODE`. -/
  keywaitMode : KeywaitMode
  deriving DecidableEq, Repr

/-- PRESUMED (the spec's general knowledge, 20_memory.md R53): the conventional hexadecimal font. Unsafe. Log 5. -/
def Config.conventionalFont : Vector (Vector Byte 5) 16 :=
  #v[#v[0xF0, 0x90, 0x90, 0x90, 0xF0], #v[0x20, 0x60, 0x20, 0x20, 0x70],
     #v[0xF0, 0x10, 0xF0, 0x80, 0xF0], #v[0xF0, 0x10, 0xF0, 0x10, 0xF0],
     #v[0x90, 0x90, 0xF0, 0x10, 0x10], #v[0xF0, 0x80, 0xF0, 0x10, 0xF0],
     #v[0xF0, 0x80, 0xF0, 0x90, 0xF0], #v[0xF0, 0x10, 0x20, 0x40, 0x40],
     #v[0xF0, 0x90, 0xF0, 0x90, 0xF0], #v[0xF0, 0x90, 0xF0, 0x10, 0xF0],
     #v[0xF0, 0x90, 0xF0, 0x90, 0x90], #v[0xE0, 0x90, 0xE0, 0x90, 0xE0],
     #v[0xF0, 0x80, 0x80, 0x80, 0xF0], #v[0xE0, 0x90, 0x90, 0x90, 0xE0],
     #v[0xF0, 0x80, 0xF0, 0x80, 0xF0], #v[0xF0, 0x80, 0xF0, 0x80, 0x80]]

/-- `QUIRK_ADDI_VF` of this hardware: OPEN, no default (00_scope.md R6, decision D12). Log 11. -/
opaque Config.openQuirkAddiVF : Bool

/-- `SEED` of this hardware: OPEN, of unspecified width (00_scope.md R6, 10_state.md R34). Log 15. -/
opaque Config.openSeed : Nat

/-- The byte of the `draw`-th call of `EntropyNext()` under a seed: any byte 0..255, no generator is given
(10_state.md R32, decision D16). Log 14. -/
opaque Config.freeByte (seed draw : Nat) : Byte

/-- The `k`-th free choice of the model, used only by `VfDestPolicy.unsettled` and `KeywaitMode.levelAny`. Log 28. -/
opaque Config.freeNat (k : Nat) : Nat

/-- The configuration with the spec's default for every parameter that has one (00_scope.md R6), and the given quirk
flag, which has none. -/
def Config.defaults (quirk : Bool) : Config where
  quirkAddiVF := quirk
  fontBase := 0x050
  font := Config.conventionalFont
  admitUnlisted4 := true
  loadStoreIncI := false
  vfDestPolicy := .flagWins
  keywaitMode := .levelLowest

/-- The configuration the model resets with: the defaults, the quirk flag left open. -/
def Config.hardware : Config := Config.defaults Config.openQuirkAddiVF

end Sys2Proof
end

