-- ==== Sys2Proof/Machine/State.lean ====
section
/-! DEFINITION. The Machine State (10_state.md R20) with what stands beside it: the entropy source (R32), the fault
status (R33) and the configuration (R34); the reasons a step stops; and the state after reset. -/

namespace Sys2Proof.Machine

/-- The errors of 60_exceptions.md R180. As an outcome of `step` each means "this core is faulted: `Cycle()` returns
the fault and changes nothing" (R190); raising one is a next state whose `fault` field holds it (`Machine.raise`). -/
inductive Fault where
  /-- Code 1: no row of the opcode map matches (R181). Answered by `step` on a core that holds it. Safe: the machine
  stops where a lenient host might go on. -/
  | unknownOpcode
  /-- Code 2: `CALL` with a full stack (R182). Answered by `step` on a core that holds it. Safe, as above. -/
  | stackOverflow
  /-- Code 3: `RET` with an empty stack (R183). Answered by `step` on a core that holds it. Safe, as above. -/
  | stackUnderflow
  /-- Code 4: in the taxonomy, never raised: every address is reduced modulo 4096 (R184, 20_memory.md R55). No run from
  reset holds it. Safe. -/
  | addressOutOfRange
  deriving DecidableEq, Repr

/-- Why the model gives an instruction no meaning. -/
inductive Refusal where
  /-- Said by an arm of `exec` whose instruction has no meaning yet. Safe. No arm says it. -/
  | notModelled (mnemonic : String)
  /-- Said by Fx29, Fx33, Fx55 and Fx65 when `ADMIT_UNLISTED4` is off: "when it is off the model refuses them"
  (42_index_memory.md R146). Safe. -/
  | unlistedNotAdmitted
  deriving DecidableEq, Repr

/-- The entropy source (10_state.md R32). Its generator is not given, so a draw is a byte a test supplied or a free
byte of Config. -/
structure Entropy where
  /-- `SEED`, of unspecified width. -/
  seed : Nat
  /-- The bytes a test supplies, next one first: "so tests can supply a deterministic sequence". -/
  supplied : List Byte
  /-- How many draws were made. The MODEL's own field: it selects the free byte. -/
  draws : Nat
  deriving DecidableEq, Repr

/-- `memory` (20_memory.md R50): (address, byte) pairs, addresses strictly rising, none equal to what an unlisted
address reads as. -/
abbrev Memory := List Host.Cell

/-- The whole state. Plain data. -/
structure State where
  /-- 20_memory.md R50. -/
  mem : Memory
  /-- `V0` .. `VF` (10_state.md R21). -/
  v : Vector Byte 16
  /-- The index register `I` (R23). -/
  index : Word
  /-- The program counter (R24). -/
  pc : Word
  /-- The 16 return-address slots (R26). -/
  stack : Vector Word 16
  /-- The next free slot, 0..16 (R26). -/
  sp : Fin 17
  /-- R27. -/
  delayTimer : Byte
  /-- R27. -/
  soundTimer : Byte
  /-- `keypad[k]`, `true` is pressed (R28). -/
  keypad : Vector Bool 16
  /-- `video[py][px]`, `true` is on (R29). -/
  video : Video
  /-- The most recently fetched instruction (R31). -/
  opcode : Word
  /-- The entropy source (R32). -/
  entropy : Entropy
  /-- The fault status (R33): `none` is code 0. -/
  fault : Option Fault
  /-- The configuration (R34). -/
  config : Config
  /-- How many free choices were made. The MODEL's own field (log 28). -/
  freeDraws : Nat
  deriving DecidableEq, Repr

/-- `Reset(SEED, config)` (70_reset_and_hazards.md R210): memory zeroed but for the font, `pc` at 0x200, the entropy
source seeded (10_state.md R37); everything else zero (R38, the spec's decision D5, log 4). `supplied` is the sequence
a test gives the entropy source, empty in normal operation. -/
def State.resetWith (seed : Nat) (supplied : List Byte) (config : Config) : State where
  mem := []
  v := Vector.replicate 16 0
  index := 0
  pc := 0x200
  stack := Vector.replicate 16 0
  sp := 0
  delayTimer := 0
  soundTimer := 0
  keypad := Vector.replicate 16 false
  video := Vector.replicate 32 (Vector.replicate 64 false)
  opcode := 0
  entropy := { seed := seed, supplied := supplied, draws := 0 }
  fault := none
  config := config
  freeDraws := 0

/-- The machine right after reset, with this hardware's open seed and open quirk flag. -/
def State.reset : State := State.resetWith Config.openSeed [] Config.hardware

end Sys2Proof.Machine
end

