-- ==== Sys2Proof/Machine/Ops.lean ====
section
/-! DEFINITION. The operations over memory, registers, stack, framebuffer and entropy that the meanings share, and
raising a fault. -/

namespace Sys2Proof.Machine

/-! ## Addresses -/

/-- The address of byte `i` of a transfer at `base`: `(base + i) mod 4096` (20_memory.md R55, 42_index_memory.md R147). -/
def memAddr (base : Word) (i : Nat) : Nat := (base.toNat + i) % 4096

/-- Address arithmetic on `pc` and `index`: modulo 4096 (00_scope.md R10). -/
def addrAdd (a : Word) (k : Nat) : Word := BitVec.ofNat 16 ((a.toNat + k) % 4096)

/-- `(a - 2) mod 4096` (44_keypad_timers_entropy.md R163, 60_exceptions.md R189). -/
def addrBack2 (a : Word) : Word := BitVec.ofNat 16 ((a.toNat + 4094) % 4096)

/-! ## Memory -/

/-- What an unlisted address reads as: the contents after reset, the font at `FONT_BASE` and 0 elsewhere
(10_state.md R37, 20_memory.md R51, R52). -/
def resetByte (c : Config) (a : Nat) : Byte :=
  if h : c.fontBase ≤ a ∧ a < c.fontBase + 80 then
    (c.font[(a - c.fontBase) / 5]'(by omega))[(a - c.fontBase) % 5]'(by omega)
  else 0

/-- The listed byte at an address. -/
def Memory.lookup : Memory → Nat → Option Byte
  | [], _ => none
  | (b, w) :: m, a => if a = b then some w else Memory.lookup m a

/-- Store a byte, keeping the canonical form: `dflt` is what the address reads as when it is not listed. -/
def Memory.store : Memory → Nat → Byte → Byte → Memory
  | [], a, x, dflt => if x = dflt then [] else [(a, x)]
  | (b, w) :: m, a, x, dflt =>
    if a < b then (if x = dflt then (b, w) :: m else (a, x) :: (b, w) :: m)
    else if a = b then (if x = dflt then m else (a, x) :: m)
    else (b, w) :: Memory.store m a x dflt

/-- The canonical form from a lower bound on: addresses rising and below 4096, no entry equal to the reset byte. -/
def Memory.wfFrom (c : Config) (lo : Nat) : Memory → Bool
  | [] => true
  | (b, w) :: m => decide (lo ≤ b) && decide (b < 4096) && decide (w ≠ resetByte c b) && Memory.wfFrom c (b + 1) m

/-- The memory is in its one canonical form. -/
def Memory.wf (c : Config) (m : Memory) : Bool := Memory.wfFrom c 0 m

/-- The byte at an address of `memory`. -/
def State.byteAt (s : State) (a : Nat) : Byte := (Memory.lookup s.mem a).getD (resetByte s.config a)

/-- Write the byte at an address of `memory`. -/
def State.setByteAt (s : State) (a : Nat) (x : Byte) : State :=
  { s with mem := Memory.store s.mem a x (resetByte s.config a) }

/-- `MemRead(base + i, 1)` (00_scope.md R8). -/
def State.memRead (s : State) (base : Word) (i : Nat) : Byte := s.byteAt (memAddr base i)

/-- `MemWrite(base + i, 1, x)` (00_scope.md R8). -/
def State.memWrite (s : State) (base : Word) (i : Nat) (x : Byte) : State := s.setByteAt (memAddr base i) x

/-- Single-byte writes at ascending offsets from `i` (20_memory.md R57). -/
def State.memWriteAll (s : State) (base : Word) (i : Nat) : List Byte → State
  | [] => s
  | x :: xs => (s.memWrite base i x).memWriteAll base (i + 1) xs

/-! ## Registers -/

/-- A read of `V[x]` (00_scope.md R8). -/
def State.reg (s : State) (x : RegNo) : Byte := s.v[x]

/-- `V[x] <- b`. No register is hard-wired (10_state.md R21). -/
def State.setReg (s : State) (x : RegNo) (b : Byte) : State := { s with v := s.v.set x b }

/-- `pc <- a`. -/
def State.setPc (s : State) (a : Word) : State := { s with pc := a }

/-- `index <- a`. -/
def State.setIndex (s : State) (a : Word) : State := { s with index := a }

/-- `delayTimer <- b`. -/
def State.setDelay (s : State) (b : Byte) : State := { s with delayTimer := b }

/-- `soundTimer <- b`. -/
def State.setSound (s : State) (b : Byte) : State := { s with soundTimer := b }

/-- `video <- d`. -/
def State.setVideo (s : State) (d : Video) : State := { s with video := d }

/-- The entropy source replaced. -/
def State.setEntropy (s : State) (e : Entropy) : State := { s with entropy := e }

/-- A skip: 2 more on the advanced `pc` when the condition holds, nothing otherwise (40_control_flow.md R108). -/
def State.skipIf (s : State) (cond : Bool) : State := if cond then s.setPc (addrAdd s.pc 2) else s

/-- The registers `V0` .. `V15` in ascending order. -/
def allRegs : List RegNo := [0, 1, 2, 3, 4, 5, 6, 7, 8, 9, 10, 11, 12, 13, 14, 15]

/-- `V0` .. `Vx` in ascending order: the `x + 1` registers of Fx55 and Fx65 (42_index_memory.md R144, R145). -/
def regsUpTo (x : RegNo) : List RegNo := allRegs.take (x.val + 1)

/-- Load each register of a list from its own offset, in order. -/
def State.loadEach (s : State) (base : Word) : List RegNo → State
  | [] => s
  | r :: rs => (s.setReg r (s.memRead base r.val)).loadEach base rs

/-- `if LOADSTORE_INC_I: index <- (index + x + 1) mod 4096` (42_index_memory.md R144, R145). -/
def State.bumpIndex (s : State) (x : RegNo) : State :=
  if s.config.loadStoreIncI then s.setIndex (addrAdd s.index (x.val + 1)) else s

/-! ## Free choices and the flag written last -/

/-- One free choice of the model: an unknown number, and the state that has made it (log 28). -/
def State.freeChoice (s : State) : Nat × State :=
  (Config.freeNat s.freeDraws, { s with freeDraws := s.freeDraws + 1 })

/-- Result first, flag last (41_load_alu.md R131): with `x = 0xF` the flag remains. -/
def State.setResultFlag (s : State) (x : RegNo) (result flag : Byte) : State := (s.setReg x result).setReg regF flag

/-- The two writes of `SUB`, `SHR`, `SUBN`, `SHL` under `VF_DEST_POLICY` (41_load_alu.md R131, log 8). -/
def State.setResultFlagByPolicy (s : State) (x : RegNo) (result flag : Byte) : State :=
  match s.config.vfDestPolicy with
  | .flagWins => s.setResultFlag x result flag
  | .unsettled =>
    if x = regF then s.freeChoice.2.setReg regF (if s.freeChoice.1 % 2 = 0 then flag else result)
    else s.setResultFlag x result flag

/-! ## Stack -/

/-- Push a return address: `stack[sp] <- a; sp <- sp + 1` (40_control_flow.md R102); `none` when the stack is full. -/
def State.push (s : State) (a : Word) : Option State :=
  if h : s.sp.val < 16 then
    some { s with stack := s.stack.set s.sp.val a, sp := ⟨s.sp.val + 1, by omega⟩ }
  else none

/-- Pop a return address: `sp <- sp - 1`, then the slot at `sp` (40_control_flow.md R100); `none` when the stack is
empty. The slot keeps its value (10_state.md R26). -/
def State.pop (s : State) : Option (Word × State) :=
  if h : 0 < s.sp.val then
    some (s.stack[s.sp.val - 1]'(by omega), { s with sp := ⟨s.sp.val - 1, by omega⟩ })
  else none

/-! ## Entropy -/

/-- The byte of the next `EntropyNext()`: the next supplied byte, or a free one (10_state.md R32). -/
def Entropy.nextByte (e : Entropy) : Byte :=
  match e.supplied with
  | b :: _ => b
  | [] => Config.freeByte e.seed e.draws

/-- The entropy source after one `EntropyNext()`. -/
def Entropy.advance (e : Entropy) : Entropy :=
  { e with supplied := e.supplied.tail, draws := e.draws + 1 }

/-! ## Framebuffer -/

/-- The pixel at column `px` of row `py` (10_state.md R29). -/
def Video.pixel (d : Video) (px : Fin 64) (py : Fin 32) : Bool := d[py][px]

/-- Invert one pixel: `video[py][px] <- video[py][px] ^ 1` (43_display.md R151). -/
def Video.toggle (d : Video) (px : Fin 64) (py : Fin 32) : Video := d.set py (d[py].set px (!d[py][px]))

/-- The framebuffer with every pixel off (43_display.md R150). -/
def Video.dark : Video := Vector.replicate 32 (Vector.replicate 64 false)

/-- The linear address of a pixel, row-major (10_state.md R30, decision D8). -/
def fbAddr (px : Fin 64) (py : Fin 32) : Nat := py.val * 64 + px.val

/-! ## Faults -/

/-- Raise an error: the fetch effects stand, nothing else is written, and `fault` holds the error
(60_exceptions.md R188). There is no handler, no saved `pc` and no return; only `Reset` clears it (R190). Log 12. -/
def raise (e : Fault) (s : State) : State := { s with fault := some e }

/-- The numeric code of an error (60_exceptions.md R180, decision D13). -/
def Fault.code : Fault → Nat
  | .unknownOpcode => 1
  | .stackOverflow => 2
  | .stackUnderflow => 3
  | .addressOutOfRange => 4

/-- The fault status as the host reads it: 0 when there is none (10_state.md R33). -/
def State.faultCode (s : State) : Nat :=
  match s.fault with
  | none => 0
  | some e => e.code

/-- Run a meaning of one of the four unlisted instructions only where `ADMIT_UNLISTED4` is on
(42_index_memory.md R146). -/
def ifAdmitted (s : State) (t : State) : Host.Outcome State Fault Refusal :=
  if s.config.admitUnlisted4 then .next t else .refused .unlistedNotAdmitted

end Sys2Proof.Machine
end

