-- ==== Sys2Proof/Machine/Operands.lean ====
section
/-! DEFINITION. The operand forms: address immediates, key indices, sprite coordinates and sprite bits, decimal
digits, glyph addresses. Register operands are `State.reg`, byte immediates stand as they are (30_encoding.md R83). -/

namespace Sys2Proof.Machine

/-- `zext_16(nnn)` (30_encoding.md R83). -/
def zext16 (nnn : Imm12) : Word := nnn.setWidth 16

/-- The key index of the key skips: `V[x] mod 16` (44_keypad_timers_entropy.md R167, decision D10). -/
def keyIndex (b : Byte) : KeyNo := ⟨b.toNat % 16, by omega⟩

/-- Whether a key is pressed. -/
def State.keyDown (s : State) (k : KeyNo) : Bool := s.keypad[k]

/-- The sixteen keys in ascending order. -/
def allKeys : List KeyNo := [0, 1, 2, 3, 4, 5, 6, 7, 8, 9, 10, 11, 12, 13, 14, 15]

/-- The pressed keys, smallest first (44_keypad_timers_entropy.md R163). -/
def State.pressedKeys (s : State) : List KeyNo := allKeys.filter s.keyDown

/-- The column of a sprite pixel: `(vx + col) mod 64` (10_state.md R30). -/
def pixelColumn (vx : Byte) (col : Nat) : Fin 64 := ⟨(vx.toNat + col) % 64, by omega⟩

/-- The row of a sprite pixel: `(vy + row) mod 32` (10_state.md R30). -/
def pixelRow (vy : Byte) (row : Nat) : Fin 32 := ⟨(vy.toNat + row) % 32, by omega⟩

/-- Whether a sprite byte sets column `col` 0..7: bit 7 is column 0 (43_display.md R152, decision D7). Log 6. -/
def spriteBit (b : Byte) (col : Nat) : Bool := b.getLsbD (7 - col)

/-- The pixels that one row of a sprite inverts, left to right. -/
def rowTargets (b : Byte) (vx vy : Byte) (row : Nat) : List (Fin 64 × Fin 32) :=
  ((List.range 8).filter (spriteBit b)).map fun col => (pixelColumn vx col, pixelRow vy row)

/-- The pixels that a sprite of `n` rows at `index` inverts, row by row (43_display.md R151). -/
def State.spriteTargets (s : State) (vx vy : Byte) (n : Nat) : List (Fin 64 × Fin 32) :=
  (List.range n).flatMap fun row => rowTargets (s.memRead s.index row) vx vy row

/-- Hundreds, tens and units of a byte (42_index_memory.md R143). -/
def decimalDigits (b : Byte) : List Byte :=
  [BitVec.ofNat 8 (b.toNat / 100), BitVec.ofNat 8 (b.toNat / 10 % 10), BitVec.ofNat 8 (b.toNat % 10)]

/-- `(FONT_BASE + 5 * V[x]) mod 4096`, unmasked (42_index_memory.md R142, decision D22). -/
def glyphAddr (c : Config) (b : Byte) : Word := BitVec.ofNat 16 ((c.fontBase + 5 * b.toNat) % 4096)

end Sys2Proof.Machine
end

