-- ==== Sys2Proof/Machine/Flags.lean ====
section
/-! DEFINITION. Every value an instruction writes to `VF` as a flag, always exactly 0 or 1 (10_state.md R22). -/

namespace Sys2Proof.Machine

/-- A flag as an 8-bit value. -/
def flagByte (b : Bool) : Byte := if b then 1 else 0

/-- `ADD Vx, Vy`: 1 iff the true sum exceeds 255 (41_load_alu.md R126). -/
def carryFlag (a b : Byte) : Byte := flagByte (decide (255 < a.toNat + b.toNat))

/-- `SUB` and `SUBN`, minuend first: 1 iff there is no borrow (41_load_alu.md R127, R129). -/
def noBorrowFlag (a b : Byte) : Byte := flagByte (decide (b.toNat ≤ a.toNat))

/-- `SHR`: the bit shifted out, bit 0 before the shift (41_load_alu.md R128). -/
def shiftRightFlag (a : Byte) : Byte := a &&& 1

/-- `SHL`: the bit shifted out, bit 7 before the shift (41_load_alu.md R130). -/
def shiftLeftFlag (a : Byte) : Byte := (a >>> 7) &&& 1

/-- `ADD I, Vx` with the quirk on: 1 iff the sum passes 0xFFF (42_index_memory.md R141). -/
def indexOverflowFlag (i : Word) (b : Byte) : Byte := flagByte (decide (0xFFF < i.toNat + b.toNat))

/-- A drawing in progress: the framebuffer and whether an on pixel went off (43_display.md R151). -/
structure Drawing where
  video : Video
  hit : Bool

/-- Invert one pixel, noting a collision when it was on. -/
def drawPixel (d : Drawing) (p : Fin 64 × Fin 32) : Drawing :=
  { video := Video.toggle d.video p.1 p.2, hit := d.hit || Video.pixel d.video p.1 p.2 }

/-- Invert a list of pixels in order, starting with no collision. -/
def drawPixels (d : Video) (ps : List (Fin 64 × Fin 32)) : Drawing := ps.foldl drawPixel { video := d, hit := false }

/-- `DRW`: 1 iff any inversion turned an on pixel off (43_display.md R151). -/
def collisionFlag (d : Drawing) : Byte := flagByte d.hit

end Sys2Proof.Machine
end

