-- ==== Sys2Proof/Machine/ControlFlow.lean ====
section
/-! DEFINITION. Control flow (40_control_flow.md). On entry `pc` already holds the address of the instruction plus 2
(30_encoding.md R93). -/

namespace Sys2Proof.Machine

/-- `RET` (R100): pop, or raise `StackUnderflow` writing nothing. -/
def execRet (s : State) : Host.Outcome State Fault Refusal :=
  match s.pop with
  | some (a, t) => .next (t.setPc a)
  | none => .next (raise .stackUnderflow s)

/-- `JP nnn` (R101). -/
def execJp (nnn : Imm12) (s : State) : Host.Outcome State Fault Refusal := .next (s.setPc (zext16 nnn))

/-- `CALL nnn` (R102): push the advanced `pc`, or raise `StackOverflow` writing nothing. -/
def execCall (nnn : Imm12) (s : State) : Host.Outcome State Fault Refusal :=
  match s.push s.pc with
  | some t => .next (t.setPc (zext16 nnn))
  | none => .next (raise .stackOverflow s)

/-- `SE Vx, kk` (R103). -/
def execSeKk (x : RegNo) (kk : Byte) (s : State) : Host.Outcome State Fault Refusal :=
  .next (s.skipIf (s.reg x == kk))

/-- `SNE Vx, kk` (R104). -/
def execSneKk (x : RegNo) (kk : Byte) (s : State) : Host.Outcome State Fault Refusal :=
  .next (s.skipIf (s.reg x != kk))

/-- `SE Vx, Vy` (R105). -/
def execSeVy (x y : RegNo) (s : State) : Host.Outcome State Fault Refusal :=
  .next (s.skipIf (s.reg x == s.reg y))

/-- `SNE Vx, Vy` (R106). -/
def execSneVy (x y : RegNo) (s : State) : Host.Outcome State Fault Refusal :=
  .next (s.skipIf (s.reg x != s.reg y))

/-- `JP V0, nnn` (R107): `(nnn + V[0]) mod 4096`. -/
def execJpV0 (nnn : Imm12) (s : State) : Host.Outcome State Fault Refusal :=
  .next (s.setPc (addrAdd (zext16 nnn) (s.reg 0).toNat))

end Sys2Proof.Machine
end

