-- ==== Sys2Proof/Machine/Display.lean ====
section
/-! DEFINITION. Display (43_display.md). -/

namespace Sys2Proof.Machine

/-- `CLS` (R150). -/
def execCls (s : State) : Host.Outcome State Fault Refusal := .next (s.setVideo Video.dark)

/-- The drawing of `DRW Vx, Vy, n`: coordinates are read before `VF` is written (R151). -/
def State.drawing (s : State) (x y : RegNo) (n : Fin 16) : Drawing :=
  drawPixels s.video (s.spriteTargets (s.reg x) (s.reg y) n.val)

/-- `DRW Vx, Vy, n` (R151): `VF` is written last, in every execution. -/
def execDrw (x y : RegNo) (n : Fin 16) (s : State) : Host.Outcome State Fault Refusal :=
  .next ((s.setVideo (s.drawing x y n).video).setReg regF (collisionFlag (s.drawing x y n)))

end Sys2Proof.Machine
end

