-- ==== Sys2Proof/Machine/IndexMemory.lean ====
section
/-! DEFINITION. Index register and memory (42_index_memory.md). The last four are the instructions the source counts
but does not describe (R146, log 2). -/

namespace Sys2Proof.Machine

/-- `LD I, nnn` (R140). -/
def execLdI (nnn : Imm12) (s : State) : Host.Outcome State Fault Refusal := .next (s.setIndex (zext16 nnn))

/-- `ADD I, Vx` (R141): the sum modulo 4096; `VF` is written only under `QUIRK_ADDI_VF` (log 11). -/
def execAddI (x : RegNo) (s : State) : Host.Outcome State Fault Refusal :=
  .next (if s.config.quirkAddiVF then
      (s.setIndex (addrAdd s.index (s.reg x).toNat)).setReg regF (indexOverflowFlag s.index (s.reg x))
    else s.setIndex (addrAdd s.index (s.reg x).toNat))

/-- `LD F, Vx` (R142). -/
def execLdF (x : RegNo) (s : State) : Host.Outcome State Fault Refusal :=
  ifAdmitted s (s.setIndex (glyphAddr s.config (s.reg x)))

/-- `LD B, Vx` (R143): three decimal digits at `index`. -/
def execLdB (x : RegNo) (s : State) : Host.Outcome State Fault Refusal :=
  ifAdmitted s (s.memWriteAll s.index 0 (decimalDigits (s.reg x)))

/-- `LD [I], Vx` (R144): `V0` .. `Vx` at `index`, ascending. -/
def execStoreRegs (x : RegNo) (s : State) : Host.Outcome State Fault Refusal :=
  ifAdmitted s ((s.memWriteAll s.index 0 ((regsUpTo x).map s.reg)).bumpIndex x)

/-- `LD Vx, [I]` (R145): `V0` .. `Vx` from `index`, ascending. -/
def execLoadRegs (x : RegNo) (s : State) : Host.Outcome State Fault Refusal :=
  ifAdmitted s ((s.loadEach s.index (regsUpTo x)).bumpIndex x)

end Sys2Proof.Machine
end

