-- ==== Sys2Proof/Machine/KeypadTimers.lean ====
section
/-! DEFINITION. Keypad, timers and random (44_keypad_timers_entropy.md). -/

namespace Sys2Proof.Machine

/-- `SKP Vx` (R160). -/
def execSkp (x : RegNo) (s : State) : Host.Outcome State Fault Refusal :=
  .next (s.skipIf (s.keyDown (keyIndex (s.reg x))))

/-- `SKNP Vx` (R161). -/
def execSknp (x : RegNo) (s : State) : Host.Outcome State Fault Refusal :=
  .next (s.skipIf (!s.keyDown (keyIndex (s.reg x))))

/-- `LD Vx, DT` (R162). -/
def execLdVxDt (x : RegNo) (s : State) : Host.Outcome State Fault Refusal := .next (s.setReg x s.delayTimer)

/-- The key wait-for-key reports when `k` is the smallest pressed one and `ks` are the others, under `KEYWAIT_MODE`
(R163, log 10). -/
def State.reportKey (s : State) (x : RegNo) (k : KeyNo) (ks : List KeyNo) : State :=
  match s.config.keywaitMode with
  | .levelLowest => s.setReg x (BitVec.ofNat 8 k.val)
  | .levelAny =>
    s.freeChoice.2.setReg x (BitVec.ofNat 8 ((k :: ks).getD (s.freeChoice.1 % (ks.length + 1)) k).val)

/-- `LD Vx, K` (R163): with a key down, its index; with none, `pc` goes back to the instruction and nothing else
changes (the cycle's outcome is then `Blocked`, see Machine/Cycle.lean). -/
def execLdVxK (x : RegNo) (s : State) : Host.Outcome State Fault Refusal :=
  match s.pressedKeys with
  | k :: ks => .next (s.reportKey x k ks)
  | [] => .next (s.setPc (addrBack2 s.pc))

/-- `LD DT, Vx` (R164). -/
def execLdDtVx (x : RegNo) (s : State) : Host.Outcome State Fault Refusal := .next (s.setDelay (s.reg x))

/-- `LD ST, Vx` (R165). -/
def execLdStVx (x : RegNo) (s : State) : Host.Outcome State Fault Refusal := .next (s.setSound (s.reg x))

/-- `RND Vx, kk` (R166): exactly one draw, also when `kk = 0`. -/
def execRnd (x : RegNo) (kk : Byte) (s : State) : Host.Outcome State Fault Refusal :=
  .next ((s.setEntropy s.entropy.advance).setReg x (s.entropy.nextByte &&& kk))

end Sys2Proof.Machine
end

