-- ==== Sys2Proof/Machine/LoadAlu.lean ====
section
/-! DEFINITION. Load immediate, add immediate and family 8 (41_load_alu.md). Operands are read before any write and
the flag is written last (R131); results are modulo 256 (R132). -/

namespace Sys2Proof.Machine

/-- `LD Vx, kk` (R120). -/
def execLdKk (x : RegNo) (kk : Byte) (s : State) : Host.Outcome State Fault Refusal := .next (s.setReg x kk)

/-- `ADD Vx, kk` (R121): no flag. -/
def execAddKk (x : RegNo) (kk : Byte) (s : State) : Host.Outcome State Fault Refusal :=
  .next (s.setReg x (s.reg x + kk))

/-- `LD Vx, Vy` (R122). -/
def execLdVy (x y : RegNo) (s : State) : Host.Outcome State Fault Refusal := .next (s.setReg x (s.reg y))

/-- `OR Vx, Vy` (R123). -/
def execOrVy (x y : RegNo) (s : State) : Host.Outcome State Fault Refusal :=
  .next (s.setReg x (s.reg x ||| s.reg y))

/-- `AND Vx, Vy` (R124). -/
def execAndVy (x y : RegNo) (s : State) : Host.Outcome State Fault Refusal :=
  .next (s.setReg x (s.reg x &&& s.reg y))

/-- `XOR Vx, Vy` (R125). -/
def execXorVy (x y : RegNo) (s : State) : Host.Outcome State Fault Refusal :=
  .next (s.setReg x (s.reg x ^^^ s.reg y))

/-- `ADD Vx, Vy` (R126): the flag is the carry, written last whatever `x` is. -/
def execAddVy (x y : RegNo) (s : State) : Host.Outcome State Fault Refusal :=
  .next (s.setResultFlag x (s.reg x + s.reg y) (carryFlag (s.reg x) (s.reg y)))

/-- `SUB Vx, Vy` (R127, R133): `Vx - Vy`, the flag is no borrow. -/
def execSubVy (x y : RegNo) (s : State) : Host.Outcome State Fault Refusal :=
  .next (s.setResultFlagByPolicy x (s.reg x - s.reg y) (noBorrowFlag (s.reg x) (s.reg y)))

/-- `SHR Vx` (R128). -/
def execShr (x : RegNo) (s : State) : Host.Outcome State Fault Refusal :=
  .next (s.setResultFlagByPolicy x (s.reg x >>> 1) (shiftRightFlag (s.reg x)))

/-- `SUBN Vx, Vy` (R129): `Vy - Vx`, the flag is no borrow. -/
def execSubnVy (x y : RegNo) (s : State) : Host.Outcome State Fault Refusal :=
  .next (s.setResultFlagByPolicy x (s.reg y - s.reg x) (noBorrowFlag (s.reg y) (s.reg x)))

/-- `SHL Vx` (R130). -/
def execShl (x : RegNo) (s : State) : Host.Outcome State Fault Refusal :=
  .next (s.setResultFlagByPolicy x (s.reg x <<< 1) (shiftLeftFlag (s.reg x)))

end Sys2Proof.Machine
end

