-- ==== Sys2Proof/Machine/Cycle.lean ====
section
/-! DEFINITION. The fetch and the cycle (30_encoding.md R93). -/

namespace Sys2Proof.Machine

/-- The two bytes at `pc` and `(pc + 1) mod 4096`, in address order (20_memory.md R55, R56). -/
def State.fetchBytes (s : State) : List Byte := [s.memRead s.pc 0, s.memRead s.pc 1]

/-- `MemRead(pc, 2)`, big-endian. -/
def State.fetchWord (s : State) : Word := bigEndian (s.memRead s.pc 0) (s.memRead s.pc 1)

/-- The effects of the fetch: `opcode` latched, then `pc <- (pc + 2) mod 4096`, before dispatch. -/
def State.fetched (s : State) : State := { s with opcode := s.fetchWord, pc := addrAdd s.pc 2 }

/-- The instruction the next cycle decodes. -/
def State.nextInstr (s : State) : Except DecodeError Instr :=
  match decode s.fetchBytes with
  | .ok (i, _) => .ok i
  | .error e => .error e

/-- One cycle of a core that is not faulted: fetch, dispatch, run the handler or raise `UnknownOpcode`. -/
def runCycle (s : State) : Host.Outcome State Fault Refusal :=
  match s.nextInstr with
  | .ok i => exec i s.fetched
  | .error _ => .next (raise .unknownOpcode s.fetched)

/-- `Cycle()` as a step: a faulted core answers its fault and changes nothing (R93, 60_exceptions.md R190). Log 12. -/
def stepCycle (s : State) : Host.Outcome State Fault Refusal :=
  match s.fault with
  | some e => .fault e
  | none => runCycle s

/-! ## The outcome of a cycle -/

/-- The three outcomes of `Cycle()` (00_scope.md R9, decision D15). -/
inductive CycleOutcome where
  | completed
  | blocked
  | fault (e : Fault)
  deriving DecidableEq, Repr

/-- Whether a cycle blocks: it decodes wait-for-key and no key is down (44_keypad_timers_entropy.md R163). A function
of `pc`, `memory` and `keypad`, not a stored flag (10_state.md R35). -/
def State.blocks (s : State) : Bool :=
  match s.nextInstr with
  | .ok (.ldVxK _) => s.pressedKeys.isEmpty
  | _ => false

/-- The outcome of the cycle that leads from `s` to `t`. -/
def cycleOutcome (s t : State) : CycleOutcome :=
  match t.fault with
  | some e => .fault e
  | none => if s.blocks then .blocked else .completed

/-- `Cycle()` with what it returns to the host: the state it leaves and its outcome (R93, 00_scope.md R9). -/
def cycle (s : State) : Host.Outcome (State × CycleOutcome) Fault Refusal :=
  match stepCycle s with
  | .next t => .next (t, cycleOutcome s t)
  | .fault e => .next (s, .fault e)
  | .refused r => .refused r

/-! ## Placing an instruction where the next cycle fetches it -/

/-- The two bytes written at `pc`, and no fault pending, so that the next cycle runs. -/
def State.placeWord (s : State) (w : Word) : State :=
  { s.memWriteAll s.pc 0 [w.extractLsb' 8 8, w.extractLsb' 0 8] with fault := none }

end Sys2Proof.Machine
end

