-- ==== Sys2Proof/Machine/Step.lean ====
section
/-! DEFINITION. The one step of the core: one call of `Cycle()` (00_scope.md R5). -/

namespace Sys2Proof.Machine

/-- One `Cycle()`: see `stepCycle`. -/
def step : State → Host.Outcome State Fault Refusal := stepCycle

/-- The state with a table word stored where `step` fetches its next instruction: at `pc`, high byte first. A pending
fault is cleared, because a faulted core fetches nothing. Log 26. -/
def State.withFetchWord (s : State) (nbits w : Nat) : State := s.placeWord (tableWord nbits w)

end Sys2Proof.Machine
end

