-- ==== Sys2Proof/WellFormed.lean ====
section
/-! DEFINITION. The checks on what is given to the machine from outside: a configuration and a ROM image. An
instruction needs no check, because its operand types have exactly the widths of the fields. -/

namespace Sys2Proof

/-- Every instruction term is well formed: "`nnn`, `kk`, `n`, `x`, `y` take every value; none is reserved"
(30_encoding.md R88 (d)), and the operand types hold no other value. -/
def Instr.wellFormed (_ : Instr) : Bool := true

/-- The constraint on `FONT_BASE`: the table lies in the reserved region, `FONT_BASE + 80 <= 0x200` (20_memory.md R52). -/
def Config.wellFormed (c : Config) : Bool := decide (c.fontBase + 80 ≤ 0x200)

/-- A ROM image fits in 0x200 .. 0xFFF: `ROM_MAX` is 3584 bytes (20_memory.md R54, 00_scope.md R6). -/
def romFits (bytes : List Byte) : Bool := decide (bytes.length ≤ 3584)

end Sys2Proof
end

