-- ==== Sys2Proof/Machine/HostOps.lean ====
section
/-! DEFINITION. What the host may do between cycles (60_exceptions.md R199): reset, load a ROM, set a key, tick the
timers, run a cycle, read. Each is one atomic move (00_scope.md R5); the host has no other (20_memory.md R67). -/

namespace Sys2Proof.Machine

/-- `LoadROM(bytes)` (20_memory.md R54): all or nothing; `none` is the rejection `RomTooLarge` (decision D19). -/
def State.loadRom (s : State) (bytes : List Byte) : Option State :=
  if romFits bytes then some (s.memWriteAll 0x200 0 bytes) else none

/-- `SetKey(k, b)` (60_exceptions.md R199). -/
def State.setKey (s : State) (k : KeyNo) (b : Bool) : State := { s with keypad := s.keypad.set k b }

/-- One count down, never below 0 (60_exceptions.md R193). -/
def countDown (b : Byte) : Byte := if b = 0 then 0 else b - 1

/-- `Tick()`: both timers count down (60_exceptions.md R193, decision D17). -/
def State.tick (s : State) : State := (s.setDelay (countDown s.delayTimer)).setSound (countDown s.soundTimer)

/-- `sound_on = (soundTimer != 0)` (10_state.md R36, 60_exceptions.md R194). -/
def State.soundOn (s : State) : Bool := s.soundTimer != 0

/-- The framebuffer as 2048 cells in the order of the linear address (10_state.md R30). -/
def State.linearVideo (s : State) : List Bool := (s.video.toList.map Vector.toList).flatten

/-- The host's moves (60_exceptions.md R199). -/
inductive Move where
  /-- `Reset(SEED, config)`; `supplied` is the entropy sequence a test supplies (10_state.md R32). -/
  | reset (seed : Nat) (supplied : List Byte) (config : Config)
  /-- `LoadROM(bytes)`. -/
  | loadRom (bytes : List Byte)
  /-- `SetKey(k, b)`. -/
  | setKey (k : KeyNo) (b : Bool)
  /-- `Tick()`. -/
  | tick
  /-- `Cycle()`. -/
  | cycle
  /-- `ReadVideo()`. -/
  | readVideo
  /-- `ReadSound()`. -/
  | readSound
  /-- A read of any other state element. -/
  | readState
  deriving DecidableEq, Repr

/-- What a move returns to the host. -/
inductive Reply where
  /-- The move returns nothing. -/
  | done
  /-- The ROM is rejected (20_memory.md R54). -/
  | romTooLarge
  /-- The outcome of a cycle (00_scope.md R9). -/
  | outcome (o : CycleOutcome)
  /-- The framebuffer. -/
  | video (d : Video)
  /-- `soundTimer` and `sound_on`. -/
  | sound (timer : Byte) (on : Bool)
  /-- The Machine State. -/
  | state (s : State)
  deriving DecidableEq, Repr

/-- The check on a move: a reset gets a well-formed configuration. -/
def Move.wellFormed : Move → Bool
  | .reset _ _ c => c.wellFormed
  | .loadRom _ | .setKey _ _ | .tick | .cycle | .readVideo | .readSound | .readState => true

/-- The state after a cycle and its reply. -/
def cycleMove (s : State) : Host.Outcome (State × Reply) Fault Refusal :=
  match cycle s with
  | .next (t, o) => .next (t, .outcome o)
  | .fault e => .fault e
  | .refused r => .refused r

/-- One move of the host. Moves other than `Cycle()` act on a faulted core too (60_exceptions.md R190). -/
def move (m : Move) (s : State) : Host.Outcome (State × Reply) Fault Refusal :=
  match m with
  | .reset seed supplied config => .next (State.resetWith seed supplied config, .done)
  | .loadRom bytes =>
    match s.loadRom bytes with
    | some t => .next (t, .done)
    | none => .next (s, .romTooLarge)
  | .setKey k b => .next (s.setKey k b, .done)
  | .tick => .next (s.tick, .done)
  | .cycle => cycleMove s
  | .readVideo => .next (s, .video s.video)
  | .readSound => .next (s, .sound s.soundTimer s.soundOn)
  | .readState => .next (s, .state s)

/-- A session: moves in order, up to the first refusal; replies are dropped. -/
def session : List Move → State → Host.Outcome State Fault Refusal
  | [], s => .next s
  | m :: ms, s =>
    match move m s with
    | .next (t, _) => session ms t
    | .fault e => .fault e
    | .refused r => .refused r

end Sys2Proof.Machine
end

