-- ==== Sys2Proof/Safety.lean ====
section
/-! DEFINITION. The terms claims use: the invariant between cycles, what is left unchanged, and a stopped program. -/

namespace Sys2Proof.Machine

/-- The invariant between two cycles (10_state.md R25, R40). The bounds on `sp`, registers, timers, keys and pixels
are the types of the fields. -/
structure State.Inv (s : State) : Prop where
  /-- `pc` stays within memory (10_state.md R24, R25). -/
  pc_lt : s.pc.toNat < 4096
  /-- So does `index` (R25). -/
  index_lt : s.index.toNat < 4096
  /-- So does every live stack slot (R25). -/
  stack_lt : ∀ k : Fin 16, k.val < s.sp.val → s.stack[k].toNat < 4096
  /-- The memory is in its canonical form. -/
  mem_wf : Memory.wf s.config s.mem = true
  /-- The font lies in the reserved region (20_memory.md R52). -/
  config_wf : s.config.wellFormed = true

/-- The parts of the state that a frame names. -/
inductive Part where
  | reg (x : RegNo)
  | pc
  | index
  | sp
  | slot (k : Fin 16)
  | delayTimer
  | soundTimer
  | keypad
  | video
  | opcode
  | entropy
  | fault
  | config
  | freeDraws
  | byte (a : Nat)
  deriving DecidableEq, Repr

/-- Every part of the state not listed is the same in `t` as in `s`; memory is compared byte by byte, by reading. -/
structure UnchangedExcept (ps : List Part) (s t : State) : Prop where
  reg : ∀ x, .reg x ∉ ps → t.reg x = s.reg x
  pc : .pc ∉ ps → t.pc = s.pc
  index : .index ∉ ps → t.index = s.index
  sp : .sp ∉ ps → t.sp = s.sp
  slot : ∀ k : Fin 16, .slot k ∉ ps → t.stack[k] = s.stack[k]
  delayTimer : .delayTimer ∉ ps → t.delayTimer = s.delayTimer
  soundTimer : .soundTimer ∉ ps → t.soundTimer = s.soundTimer
  keypad : .keypad ∉ ps → t.keypad = s.keypad
  video : .video ∉ ps → t.video = s.video
  opcode : .opcode ∉ ps → t.opcode = s.opcode
  entropy : .entropy ∉ ps → t.entropy = s.entropy
  fault : .fault ∉ ps → t.fault = s.fault
  config : .config ∉ ps → t.config = s.config
  freeDraws : .freeDraws ∉ ps → t.freeDraws = s.freeDraws
  byte : ∀ a, .byte a ∉ ps → t.byteAt a = s.byteAt a

/-- A program has stopped at its `pc`: a jump to itself, and no fault (70_reset_and_hazards.md R213, decision D24). -/
structure State.Stopped (s : State) : Prop where
  noFault : s.fault = none
  jumpsToSelf : ∃ nnn, decodeWord s.fetchWord = .ok (.jp nnn) ∧ zext16 nnn = s.pc

/-- Handlers run one after another, without a fetch between them, while each answers a next state. -/
def execAll : List Instr → State → Host.Outcome State Fault Refusal
  | [], s => .next s
  | i :: is, s =>
    match exec i s with
    | .next t => execAll is t
    | .fault e => .fault e
    | .refused r => .refused r

/-- A sprite of `n` rows at `index`, drawn at column `vx` and row `vy`, has a set bit over the pixel: bit `7 - col` of
row byte `row` is set and lands there (43_display.md R151, R152). -/
def State.SpriteCovers (s : State) (vx vy : Byte) (n : Nat) (px : Fin 64) (py : Fin 32) : Prop :=
  ∃ row < n, ∃ col < 8, (s.byteAt ((s.index.toNat + row) % 4096)).getLsbD (7 - col) = true ∧
    px.val = (vx.toNat + col) % 64 ∧ py.val = (vy.toNat + row) % 32

/-- Whether an instruction names a register as its plain destination (10_state.md R22). For Fx29, Fx33, Fx55 and Fx65
this is their presumed meaning (42_index_memory.md R142 to R145, log 2). -/
def Instr.hasDest (i : Instr) (r : RegNo) : Prop :=
  match i with
  | .ldKk x _ | .addKk x _ | .rnd x _ | .shr x | .shl x | .ldVxDt x | .ldVxK x => r = x
  | .ldVy x _ | .orVy x _ | .andVy x _ | .xorVy x _ | .addVy x _ | .subVy x _ | .subnVy x _ => r = x
  | .loadRegs x => r ≤ x
  | .cls | .ret | .jp _ | .call _ | .seKk _ _ | .sneKk _ _ | .seVy _ _ | .sneVy _ _ | .ldI _ | .jpV0 _ => False
  | .drw _ _ _ | .skp _ | .sknp _ | .ldDtVx _ | .ldStVx _ | .addI _ | .ldF _ | .ldB _ | .storeRegs _ => False

/-- Whether an instruction writes `VF` as a side effect under a configuration: the table of 10_state.md R22. -/
def Instr.writesFlag (i : Instr) (c : Config) : Prop :=
  match i with
  | .addVy _ _ | .subVy _ _ | .shr _ | .subnVy _ _ | .shl _ | .drw _ _ _ => True
  | .addI _ => c.quirkAddiVF = true
  | .cls | .ret | .jp _ | .call _ | .seKk _ _ | .sneKk _ _ | .seVy _ _ | .sneVy _ _ | .ldI _ | .jpV0 _ => False
  | .ldKk _ _ | .addKk _ _ | .ldVy _ _ | .orVy _ _ | .andVy _ _ | .xorVy _ _ | .rnd _ _ | .skp _ | .sknp _ => False
  | .ldVxDt _ | .ldVxK _ | .ldDtVx _ | .ldStVx _ | .ldF _ | .ldB _ | .storeRegs _ | .loadRegs _ => False

end Sys2Proof.Machine
end

