-- ==== Sys2Proof/Certificates/Slice0/Obligations.lean ====
section
/-! DEFINITION. The statements for the provers. Each docstring names the rule of spec/ it formalises; where a clause
rests on a decision of the spec or on the model's choice, it says so and names the log entry. -/

open Sys2Proof Sys2Proof.Machine

/-! ## Encoding -/

/-- Decode and encode agree, for every instruction (every term is well formed, WellFormed.lean) and every operand, on
bytes in address order, whatever follows. Rests on the opcode numbers, which are general knowledge (log 1). -/
def Obligations.DecodeOfEncodeIsTheInstruction : Prop :=
  ∀ (i : Instr) (rest : List Byte), decode (encodeBytes i ++ rest) = .ok (i, rest)

/-- Only the bits that the decoder does not examine are lost: the low nibble of families 5 and 9 and the `y` of the
shifts (30_encoding.md R88; log 27). -/
def Obligations.EncodeOfDecodeClearsOnlyUnexaminedBits : Prop :=
  ∀ (w : Word) (i : Instr), decodeWord w = .ok i →
    encode i =
      match i with
      | .seVy _ _ | .sneVy _ _ => w &&& 0xFFF0
      | .shr _ | .shl _ => w &&& 0xFF0F
      | _ => w

/-- A word decodes to an instruction of a row exactly when `w & mask == match` for that row (30_encoding.md R86; the
numbers are general knowledge, log 1). So no word matches two rows. -/
def Obligations.WordSelectsExactlyItsRow : Prop :=
  ∀ (w : Word) (r : OpcodeRow), r ∈ opcodeTable →
    (w &&& r.mask = r.pattern ↔ ∃ i, decodeWord w = .ok i ∧ i.row = r)

/-- The unknown opcodes are exactly the set of the table of 30_encoding.md R89 (strict matching is decision D3, log 3),
and the error names the word. -/
def Obligations.UnknownOpcodesAreExactlyTheListedSet : Prop :=
  ∀ w : Word,
    (decodeWord w = .error (.unknownOpcode w) ↔
      (w.toNat / 4096 = 0x0 ∧ w ≠ 0x00E0 ∧ w ≠ 0x00EE) ∨
      (w.toNat / 4096 = 0x8 ∧ w.toNat % 16 ∈ [0x8, 0x9, 0xA, 0xB, 0xC, 0xD, 0xF]) ∨
      (w.toNat / 4096 = 0xE ∧ w.toNat % 256 ∉ [0x9E, 0xA1]) ∨
      (w.toNat / 4096 = 0xF ∧ w.toNat % 256 ∉ [0x07, 0x0A, 0x15, 0x18, 0x1E, 0x29, 0x33, 0x55, 0x65])) ∧
    ((∃ i, decodeWord w = .ok i) ∨ decodeWord w = .error (.unknownOpcode w))

/-- Words written out from the encodings of spec/ decode to what they stand for (95_test_vectors.md T-ENC). -/
def Obligations.WordsWrittenOutDecode : Prop :=
  decodeWord 0x00E0 = .ok .cls ∧ decodeWord 0x600A = .ok (.ldKk 0 0x0A) ∧ decodeWord 0x8014 = .ok (.addVy 0 1) ∧
  decodeWord 0x1200 = .ok (.jp 0x200) ∧ decodeWord 0xD7A3 = .ok (.drw 7 10 3) ∧ decodeWord 0x5121 = .ok (.seVy 1 2) ∧
  decodeWord 0xE0A1 = .ok (.sknp 0) ∧ decodeWord 0xFF65 = .ok (.loadRegs 15) ∧ decodeWord 0xBFFF = .ok (.jpV0 0xFFF)

/-! ## The cycle -/

/-- A step of an unfaulted core runs the instruction that the two bytes at `pc` and `(pc + 1) mod 4096` decode to, the
byte at the lower address in bits 15..8, with `opcode` latched and `pc` advanced by 2 modulo 4096
(20_memory.md R56). -/
def Obligations.StepRunsTheDecodedInstruction : Prop :=
  ∀ (s : State) (i : Instr) (w : Word), s.fault = none →
    w = s.byteAt (s.pc.toNat % 4096) ++ s.byteAt ((s.pc.toNat + 1) % 4096) → decodeWord w = .ok i →
    step s = exec i { s with opcode := w, pc := BitVec.ofNat 16 ((s.pc.toNat + 2) % 4096) }

/-- An unfaulted core that fetches a word of no row keeps the effects of the fetch and takes `UnknownOpcode`, and
nothing else changes (the state a fault leaves is decision D14, log 12). -/
def Obligations.UnknownOpcodeFaultsAfterTheFetch : Prop :=
  ∀ (s : State) (e : DecodeError), s.fault = none → decodeWord s.fetchWord = .error e →
    ∃ t, step s = .next t ∧ cycle s = .next (t, .fault .unknownOpcode) ∧ t.fault = some .unknownOpcode ∧
      t.opcode = s.fetchWord ∧ t.pc.toNat = (s.pc.toNat + 2) % 4096 ∧ UnchangedExcept [.pc, .opcode, .fault] s t

/-- A faulted core answers its fault and changes nothing (decision D14, log 12). -/
def Obligations.FaultedCoreAnswersItsFault : Prop :=
  ∀ (s : State) (e : Fault), s.fault = some e → step s = .fault e ∧ cycle s = .next (s, .fault e)

/-- An unfaulted core that admits the four unlisted instructions always answers a next state: no access faults, no
instruction is refused. -/
def Obligations.UnfaultedCoreAlwaysGoesOn : Prop :=
  ∀ s : State, s.fault = none → s.config.admitUnlisted4 = true → ∃ t, step s = .next t

/-- A step raises `UnknownOpcode` exactly on an unknown word, `StackOverflow` exactly in `CALL` with a full stack,
`StackUnderflow` exactly in `RET` with an empty one, and never `AddressOutOfRange`. -/
def Obligations.EachFaultHasItsOneCause : Prop :=
  ∀ s t : State, step s = .next t →
    (t.fault = some .unknownOpcode ↔ ∃ e, decodeWord s.fetchWord = .error e) ∧
    (t.fault = some .stackOverflow ↔ (∃ nnn, decodeWord s.fetchWord = .ok (.call nnn)) ∧ s.sp.val = 16) ∧
    (t.fault = some .stackUnderflow ↔ decodeWord s.fetchWord = .ok .ret ∧ s.sp.val = 0) ∧
    t.fault ≠ some .addressOutOfRange

/-- Only wait-for-key with no key down ends a cycle as `Blocked`, and then nothing changes but `opcode`: `pc` points at
the instruction again. That no other instruction blocks is the source's (44_keypad_timers_entropy.md R168); that it
blocks exactly when no key is down now is the level reading and that `pc` is rewound is its mechanism (decision D11,
log 10, a DESIGN CHOICE), and the name of the outcome is decision D15 (log 13). -/
def Obligations.OnlyWaitForKeyBlocks : Prop :=
  ∀ (s t : State) (o : CycleOutcome), s.Inv → s.fault = none → cycle s = .next (t, o) →
    (o = .blocked ↔ (∃ x, decodeWord s.fetchWord = .ok (.ldVxK x)) ∧ ∀ k, s.keyDown k = false) ∧
    (o = .blocked → t = { s with opcode := s.fetchWord })

/-- Every step keeps the invariant: `pc`, `index` and the live stack slots below 4096, memory canonical. -/
def Obligations.StepKeepsTheInvariant : Prop := ∀ s t : State, s.Inv → step s = .next t → t.Inv

/-- The invariant holds after reset. -/
def Obligations.ResetMeetsTheInvariant : Prop := State.reset.Inv

/-- Every move of the host keeps the invariant, resets with a well-formed configuration included. -/
def Obligations.HostMovesKeepTheInvariant : Prop :=
  ∀ (m : Move) (s t : State) (r : Reply), s.Inv → m.wellFormed = true → move m s = .next (t, r) → t.Inv

/-! ## Reset -/

/-- Reset zeroes memory outside the font, loads the font at `FONT_BASE`, sets `pc` to 0x200 and seeds the entropy
source (10_state.md R37). -/
def Obligations.ResetDoesWhatTheSourceStates : Prop :=
  ∀ (seed : Nat) (supplied : List Byte) (c : Config),
    let s := State.resetWith seed supplied c
    s.pc = 0x200 ∧ s.entropy.seed = seed ∧
    (∀ a, ¬(c.fontBase ≤ a ∧ a < c.fontBase + 80) → s.byteAt a = 0) ∧
    (∀ (d : Fin 16) (row : Fin 5), s.byteAt (c.fontBase + 5 * d.val + row.val) = c.font[d][row])

/-- Everything else is zero after reset: the spec's decision D5, not the source (log 4). -/
def Obligations.ResetZeroesTheRest : Prop :=
  ∀ (seed : Nat) (supplied : List Byte) (c : Config),
    let s := State.resetWith seed supplied c
    (∀ x, s.reg x = 0) ∧ s.index = 0 ∧ s.sp.val = 0 ∧ (∀ k : Fin 16, s.stack[k] = 0) ∧ s.delayTimer = 0 ∧
    s.soundTimer = 0 ∧ (∀ k, s.keyDown k = false) ∧ (∀ px py, Video.pixel s.video px py = false) ∧ s.opcode = 0 ∧
    s.fault = none ∧ s.config = c

/-! ## Who writes what -/

/-- The framebuffer is mutated by `DRW` and `CLS` only; the host's moves other than a cycle leave it alone, but for
reset, which darkens it (that reset does is decision D5, log 4). -/
def Obligations.OnlyDrawAndClearChangeTheFramebuffer : Prop :=
  (∀ s t : State, step s = .next t → decodeWord s.fetchWord ≠ .ok .cls →
    (∀ x y n, decodeWord s.fetchWord ≠ .ok (.drw x y n)) → t.video = s.video) ∧
  (∀ (m : Move) (s t : State) (r : Reply), move m s = .next (t, r) → m ≠ .cycle →
    (∀ a b c, m ≠ .reset a b c) → t.video = s.video) ∧
  (∀ (a : Nat) (b : List Byte) (c : Config) (px : Fin 64) (py : Fin 32),
    Video.pixel (State.resetWith a b c).video px py = false)

/-- No cycle writes the keypad, the configuration or the seed: the first is the host's, the others are fixed at
reset. -/
def Obligations.CyclesNeverWriteKeypadOrConfiguration : Prop :=
  ∀ s t : State, step s = .next t → t.keypad = s.keypad ∧ t.config = s.config ∧ t.entropy.seed = s.entropy.seed

/-- Only `LD B, Vx` and `LD [I], Vx` write memory, and then only the 3 or `x + 1` bytes at `index`. The bytes these two
write are their presumed meanings (general knowledge, decision D2, log 2). -/
def Obligations.OnlyTheTwoStoresWriteMemory : Prop :=
  ∀ (s t : State) (a : Nat), step s = .next t → t.byteAt a ≠ s.byteAt a →
    (∃ x, decodeWord s.fetchWord = .ok (.ldB x) ∧ ∃ j < 3, a = memAddr s.index j) ∨
    (∃ x, decodeWord s.fetchWord = .ok (.storeRegs x) ∧ ∃ j ≤ x.val, a = memAddr s.index j)

/-- Only `CALL` and `RET` reach the stack and `sp`, and a slot below `sp` is never overwritten. -/
def Obligations.OnlyCallAndReturnReachTheStack : Prop :=
  ∀ s t : State, step s = .next t →
    ((∀ nnn, decodeWord s.fetchWord ≠ .ok (.call nnn)) → decodeWord s.fetchWord ≠ .ok .ret →
      t.sp = s.sp ∧ t.stack = s.stack) ∧
    (∀ k : Fin 16, k.val < s.sp.val → t.stack[k] = s.stack[k])

/-- In a cycle only `LD DT, Vx` writes `delayTimer`, only `LD ST, Vx` writes `soundTimer`, only `RND` draws from the
entropy source, and `index` is written only by `LD I`, `ADD I`, `LD F` and, under `LOADSTORE_INC_I`, by Fx55 and
Fx65 (10_state.md R23; the cases of `LD F`, Fx55 and Fx65 are presumed: decisions D2 and D23, logs 2 and 21). -/
def Obligations.TimersEntropyAndIndexHaveTheirOwnWriters : Prop :=
  ∀ s t : State, step s = .next t →
    (t.delayTimer ≠ s.delayTimer → ∃ x, decodeWord s.fetchWord = .ok (.ldDtVx x)) ∧
    (t.soundTimer ≠ s.soundTimer → ∃ x, decodeWord s.fetchWord = .ok (.ldStVx x)) ∧
    (t.entropy ≠ s.entropy → ∃ x kk, decodeWord s.fetchWord = .ok (.rnd x kk)) ∧
    (t.index ≠ s.index → (∃ nnn, decodeWord s.fetchWord = .ok (.ldI nnn)) ∨
      (∃ x, decodeWord s.fetchWord = .ok (.addI x)) ∨ (∃ x, decodeWord s.fetchWord = .ok (.ldF x)) ∨
      (s.config.loadStoreIncI = true ∧
        ∃ x, decodeWord s.fetchWord = .ok (.storeRegs x) ∨ decodeWord s.fetchWord = .ok (.loadRegs x)))

/-- No instruction reads `soundTimer`: two cores that differ only there differ only there after a step. -/
def Obligations.NoInstructionReadsTheSoundTimer : Prop :=
  ∀ (s t : State) (b : Byte), step s = .next t →
    ∃ u, step (s.setSound b) = .next u ∧ UnchangedExcept [.soundTimer] t u

/-- A register changes only as a plain destination, or is `VF` written by an instruction of the flag table
(10_state.md R22). That the destinations of `LD Vx, [I]` are `V0` .. `Vx`, and that `LD F`, `LD B` and `LD [I]` have
none, are the presumed meanings of these four (general knowledge, decision D2, log 2). -/
def Obligations.RegistersChangeOnlyAsDestinationOrFlag : Prop :=
  ∀ (i : Instr) (s t : State) (r : RegNo), exec i s = .next t → ¬ Instr.hasDest i r →
    ¬(r = 15 ∧ Instr.writesFlag i s.config) → t.reg r = s.reg r

/-- After an instruction of the flag table `VF` is 0 or 1, for every `x`, under the default `VF_DEST_POLICY` (decision
D9, log 8). The table includes `ADD I, Vx` under the quirk, which writes 0 without overflow by general knowledge
(decision D12, log 11). -/
def Obligations.FlagWritersLeaveVFZeroOrOne : Prop :=
  ∀ (i : Instr) (s t : State), exec i s = .next t → Instr.writesFlag i s.config →
    s.config.vfDestPolicy = .flagWins → t.reg 15 = 0 ∨ t.reg 15 = 1

/-- A store is seen by the very next fetch: `LD [I], Vx` with `index` at the next instruction makes `V0`, `V1` the next
fetched word. That the instruction stores `V0` and then `V1` at `index` is its presumed meaning (general knowledge,
decision D2, log 2), and that a fetch sees an earlier store is the spec's own inference (20_memory.md section 4). -/
def Obligations.StoreIsSeenByTheNextFetch : Prop :=
  ∀ (x : RegNo) (s : State), s.Inv → s.config.admitUnlisted4 = true → 1 ≤ x → s.index = s.pc →
    ∃ t, exec (.storeRegs x) s = .next t ∧ t.fetchWord = s.reg 0 ++ s.reg 1

/-- A core that rests on a jump to itself stays there: only `opcode` is rewritten (decision D24, log 22). -/
def Obligations.StoppedProgramStaysStopped : Prop :=
  ∀ s : State, s.Stopped → ∃ t, step s = .next t ∧ t.Stopped ∧ t.opcode = s.fetchWord ∧ UnchangedExcept [.opcode] s t

/-! ## Control flow -/

/-- `JP nnn` (40_control_flow.md R101). -/
def Obligations.JumpSetsPc : Prop :=
  ∀ (nnn : Imm12) (s : State), ∃ t, exec (.jp nnn) s = .next t ∧ t.pc.toNat = nnn.toNat ∧ UnchangedExcept [.pc] s t

/-- `JP V0, nnn` (40_control_flow.md R107): the offset is `V0`, the sum wraps modulo 4096. -/
def Obligations.JumpWithOffsetAddsV0 : Prop :=
  ∀ (nnn : Imm12) (s : State), ∃ t, exec (.jpV0 nnn) s = .next t ∧
    t.pc.toNat = (nnn.toNat + (s.reg 0).toNat) % 4096 ∧ UnchangedExcept [.pc] s t

/-- The four compare skips (40_control_flow.md R103 to R106): 2 more on `pc`, modulo 4096, when the condition holds, and
nothing otherwise. -/
def Obligations.CompareSkipsAdvanceByTwoWhenTheConditionHolds : Prop :=
  ∀ (x y : RegNo) (kk : Byte) (s : State),
    (∃ t, exec (.seKk x kk) s = .next t ∧ UnchangedExcept [.pc] s t ∧
      (s.reg x = kk → t.pc.toNat = (s.pc.toNat + 2) % 4096) ∧ (s.reg x ≠ kk → t.pc = s.pc)) ∧
    (∃ t, exec (.sneKk x kk) s = .next t ∧ UnchangedExcept [.pc] s t ∧
      (s.reg x ≠ kk → t.pc.toNat = (s.pc.toNat + 2) % 4096) ∧ (s.reg x = kk → t.pc = s.pc)) ∧
    (∃ t, exec (.seVy x y) s = .next t ∧ UnchangedExcept [.pc] s t ∧
      (s.reg x = s.reg y → t.pc.toNat = (s.pc.toNat + 2) % 4096) ∧ (s.reg x ≠ s.reg y → t.pc = s.pc)) ∧
    (∃ t, exec (.sneVy x y) s = .next t ∧ UnchangedExcept [.pc] s t ∧
      (s.reg x ≠ s.reg y → t.pc.toNat = (s.pc.toNat + 2) % 4096) ∧ (s.reg x = s.reg y → t.pc = s.pc))

/-- `CALL nnn` (40_control_flow.md R102): pushes the advanced `pc`, or with a full stack raises `StackOverflow` and writes
nothing else (that the raise is recorded in `fault` is decision D14, log 12). -/
def Obligations.CallPushesTheReturnAddress : Prop :=
  ∀ (nnn : Imm12) (s : State),
    (∀ h : s.sp.val < 16, ∃ t, exec (.call nnn) s = .next t ∧ t.stack[s.sp.val] = s.pc ∧ t.sp.val = s.sp.val + 1 ∧
      t.pc.toNat = nnn.toNat ∧ UnchangedExcept [.pc, .sp, .slot ⟨s.sp.val, h⟩] s t) ∧
    (s.sp.val = 16 → ∃ t, exec (.call nnn) s = .next t ∧ t.fault = some .stackOverflow ∧ UnchangedExcept [.fault] s t)

/-- `RET` (40_control_flow.md R100): pops the most recent slot, which keeps its value, or with an empty stack raises
`StackUnderflow` and writes nothing else (that the raise is recorded in `fault` is decision D14, log 12). -/
def Obligations.ReturnPopsTheReturnAddress : Prop :=
  ∀ s : State,
    (∀ h : 0 < s.sp.val, ∃ t, exec .ret s = .next t ∧
      t.pc = s.stack[s.sp.val - 1]'(by have := s.sp.isLt; omega) ∧ t.sp.val = s.sp.val - 1 ∧
      UnchangedExcept [.pc, .sp] s t) ∧
    (s.sp.val = 0 → ∃ t, exec .ret s = .next t ∧ t.fault = some .stackUnderflow ∧ UnchangedExcept [.fault] s t)

/-- Calls nested to any depth that fits, followed by as many returns, leave `sp` and `pc` as they were and change
nothing but free stack slots; from an empty stack one return more takes `StackUnderflow` (the source's property of
balanced pairs, 95_test_vectors.md S4). -/
def Obligations.BalancedCallsAndReturnsAreDepthNeutral : Prop :=
  ∀ (targets : List Imm12) (s : State), targets.length + s.sp.val ≤ 16 →
    ∃ t, execAll (targets.map Instr.call ++ List.replicate targets.length Instr.ret) s = .next t ∧
      t.sp = s.sp ∧ t.pc = s.pc ∧
      UnchangedExcept (((List.finRange 16).filter fun k => decide (s.sp.val ≤ k.val)).map Part.slot) s t ∧
      (s.sp.val = 0 → ∃ u, exec .ret t = .next u ∧ u.fault = some .stackUnderflow ∧ u.sp.val = 0)

/-- All six skips, as whole steps: a taken skip from address A continues at `(A + 4) mod 4096`, an untaken one at
`(A + 2) mod 4096`, and nothing else changes but `opcode` (that the key skips test `V[x] mod 16` is decision D10,
log 9). -/
def Obligations.EverySkipContinuesTwoOrFourOn : Prop :=
  ∀ (s : State) (i : Instr) (taken : Bool) (x y : RegNo) (kk : Byte) (k : KeyNo), s.fault = none →
    decodeWord s.fetchWord = .ok i → k.val = (s.reg x).toNat % 16 →
    (i, taken) ∈ [(.seKk x kk, s.reg x == kk), (.sneKk x kk, s.reg x != kk), (.seVy x y, s.reg x == s.reg y),
      (.sneVy x y, s.reg x != s.reg y), (.skp x, s.keyDown k), (.sknp x, !s.keyDown k)] →
    ∃ t, step s = .next t ∧ UnchangedExcept [.pc, .opcode] s t ∧
      t.pc.toNat = (s.pc.toNat + (if taken then 4 else 2)) % 4096

/-! ## Load and ALU -/

/-- `LD Vx, kk` and `LD Vx, Vy` (41_load_alu.md R120, R122): no flag. -/
def Obligations.LoadsWriteOnlyTheirDestination : Prop :=
  ∀ (x y : RegNo) (kk : Byte) (s : State),
    (∃ t, exec (.ldKk x kk) s = .next t ∧ t.reg x = kk ∧ UnchangedExcept [.reg x] s t) ∧
    (∃ t, exec (.ldVy x y) s = .next t ∧ t.reg x = s.reg y ∧ UnchangedExcept [.reg x] s t)

/-- `ADD Vx, kk` (41_load_alu.md R121): modulo 256, no flag, also with `x = 0xF`. -/
def Obligations.AddImmediateWrapsAndWritesNoFlag : Prop :=
  ∀ (x : RegNo) (kk : Byte) (s : State), ∃ t, exec (.addKk x kk) s = .next t ∧
    (t.reg x).toNat = ((s.reg x).toNat + kk.toNat) % 256 ∧ UnchangedExcept [.reg x] s t

/-- `OR`, `AND`, `XOR` (41_load_alu.md R123 to R125): bit by bit, no flag. -/
def Obligations.BitwiseInstructionsActBitByBit : Prop :=
  ∀ (x y : RegNo) (s : State),
    (∃ t, exec (.orVy x y) s = .next t ∧ UnchangedExcept [.reg x] s t ∧
      ∀ k, (t.reg x).getLsbD k = ((s.reg x).getLsbD k || (s.reg y).getLsbD k)) ∧
    (∃ t, exec (.andVy x y) s = .next t ∧ UnchangedExcept [.reg x] s t ∧
      ∀ k, (t.reg x).getLsbD k = ((s.reg x).getLsbD k && (s.reg y).getLsbD k)) ∧
    (∃ t, exec (.xorVy x y) s = .next t ∧ UnchangedExcept [.reg x] s t ∧
      ∀ k, (t.reg x).getLsbD k = ((s.reg x).getLsbD k ^^ (s.reg y).getLsbD k))

/-- `ADD Vx, Vy` (41_load_alu.md R126): the sum modulo 256, and `VF` the carry, written last even if `x` is `VF`. -/
def Obligations.AddRegistersSetsTheCarryLast : Prop :=
  ∀ (x y : RegNo) (s : State), ∃ t, exec (.addVy x y) s = .next t ∧
    (x ≠ 15 → (t.reg x).toNat = ((s.reg x).toNat + (s.reg y).toNat) % 256) ∧
    (t.reg 15).toNat = (if 255 < (s.reg x).toNat + (s.reg y).toNat then 1 else 0) ∧
    UnchangedExcept [.reg x, .reg 15] s t

/-- `SUB Vx, Vy` and `SUBN Vx, Vy` (41_load_alu.md R127, R129): the wrapped difference, `Vx - Vy` or `Vy - Vx`, in `Vx`,
and `VF` is 1 iff there is no borrow; `x` not `VF` (that form: FlagWinsWhenVFIsTheDestination). -/
def Obligations.SubtractionsWrapAndFlagNoBorrow : Prop :=
  ∀ (x y : RegNo) (s : State), x ≠ 15 →
    (∃ t, exec (.subVy x y) s = .next t ∧ (t.reg x).toNat = ((s.reg x).toNat + 256 - (s.reg y).toNat) % 256 ∧
      (t.reg 15).toNat = (if (s.reg y).toNat ≤ (s.reg x).toNat then 1 else 0) ∧
      UnchangedExcept [.reg x, .reg 15] s t) ∧
    (∃ t, exec (.subnVy x y) s = .next t ∧ (t.reg x).toNat = ((s.reg y).toNat + 256 - (s.reg x).toNat) % 256 ∧
      (t.reg 15).toNat = (if (s.reg x).toNat ≤ (s.reg y).toNat then 1 else 0) ∧
      UnchangedExcept [.reg x, .reg 15] s t)

/-- `SHR Vx` and `SHL Vx` (41_load_alu.md R128, R130): by one, 0 shifted in, `VF` the bit shifted out; `x` not `VF`. -/
def Obligations.ShiftsMoveByOneAndKeepTheBitShiftedOut : Prop :=
  ∀ (x : RegNo) (s : State), x ≠ 15 →
    (∃ t, exec (.shr x) s = .next t ∧ (t.reg x).toNat = (s.reg x).toNat / 2 ∧
      (t.reg 15).toNat = (s.reg x).toNat % 2 ∧ UnchangedExcept [.reg x, .reg 15] s t) ∧
    (∃ t, exec (.shl x) s = .next t ∧ (t.reg x).toNat = 2 * (s.reg x).toNat % 256 ∧
      (t.reg 15).toNat = (s.reg x).toNat / 128 ∧ UnchangedExcept [.reg x, .reg 15] s t)

/-- `SUB`, `SHR`, `SUBN`, `SHL` with `x = 0xF` under the default `VF_DEST_POLICY`: the flag remains (decision D9, not
the source; log 8). -/
def Obligations.FlagWinsWhenVFIsTheDestination : Prop :=
  ∀ (y : RegNo) (s : State), s.config.vfDestPolicy = .flagWins →
    (∃ t, exec (.subVy 15 y) s = .next t ∧ UnchangedExcept [.reg 15] s t ∧
      (t.reg 15).toNat = (if (s.reg y).toNat ≤ (s.reg 15).toNat then 1 else 0)) ∧
    (∃ t, exec (.subnVy 15 y) s = .next t ∧ UnchangedExcept [.reg 15] s t ∧
      (t.reg 15).toNat = (if (s.reg 15).toNat ≤ (s.reg y).toNat then 1 else 0)) ∧
    (∃ t, exec (.shr 15) s = .next t ∧ UnchangedExcept [.reg 15] s t ∧ (t.reg 15).toNat = (s.reg 15).toNat % 2) ∧
    (∃ t, exec (.shl 15) s = .next t ∧ UnchangedExcept [.reg 15] s t ∧ (t.reg 15).toNat = (s.reg 15).toNat / 128)

/-- The same four under the model's alternative policy, which leaves the point open: `VF` keeps one of the two writes,
no more is known (DESIGN CHOICE, log 8). -/
def Obligations.UnsettledPolicyKeepsOneOfTheTwoWrites : Prop :=
  ∀ (y : RegNo) (s : State), s.config.vfDestPolicy = .unsettled →
    (∃ t, exec (.subVy 15 y) s = .next t ∧ UnchangedExcept [.reg 15, .freeDraws] s t ∧
      (t.reg 15 = s.reg 15 - s.reg y ∨ (t.reg 15).toNat = (if (s.reg y).toNat ≤ (s.reg 15).toNat then 1 else 0))) ∧
    (∃ t, exec (.subnVy 15 y) s = .next t ∧ UnchangedExcept [.reg 15, .freeDraws] s t ∧
      (t.reg 15 = s.reg y - s.reg 15 ∨ (t.reg 15).toNat = (if (s.reg 15).toNat ≤ (s.reg y).toNat then 1 else 0))) ∧
    (∃ t, exec (.shr 15) s = .next t ∧ UnchangedExcept [.reg 15, .freeDraws] s t ∧
      (t.reg 15 = s.reg 15 >>> 1 ∨ (t.reg 15).toNat = (s.reg 15).toNat % 2)) ∧
    (∃ t, exec (.shl 15) s = .next t ∧ UnchangedExcept [.reg 15, .freeDraws] s t ∧
      (t.reg 15 = s.reg 15 <<< 1 ∨ (t.reg 15).toNat = (s.reg 15).toNat / 128))

/-! ## Index and memory -/

/-- `LD I, nnn` (42_index_memory.md R140). -/
def Obligations.SetIndexLoadsTheAddress : Prop :=
  ∀ (nnn : Imm12) (s : State), ∃ t, exec (.ldI nnn) s = .next t ∧ t.index.toNat = nnn.toNat ∧
    UnchangedExcept [.index] s t

/-- `ADD I, Vx`: modulo 4096 under both values of `QUIRK_ADDI_VF`; `VF` is written only with the quirk on, 1 past 0xFFF
and 0 otherwise (that it writes 0 is general knowledge, decision D12, log 11). -/
def Obligations.AddToIndexWrapsUnderBothQuirkValues : Prop :=
  ∀ (x : RegNo) (s : State), ∃ t, exec (.addI x) s = .next t ∧
    t.index.toNat = (s.index.toNat + (s.reg x).toNat) % 4096 ∧
    (s.config.quirkAddiVF = false → UnchangedExcept [.index] s t) ∧
    (s.config.quirkAddiVF = true → UnchangedExcept [.index, .reg 15] s t ∧
      (t.reg 15).toNat = (if 0xFFF < s.index.toNat + (s.reg x).toNat then 1 else 0))

/-- `LD F, Vx`: `FONT_BASE + 5 * V[x]` modulo 4096, unmasked (general knowledge, decisions D2, D22; logs 2, 20). -/
def Obligations.GlyphAddressIsFiveBytesPerDigit : Prop :=
  ∀ (x : RegNo) (s : State), s.config.admitUnlisted4 = true → ∃ t, exec (.ldF x) s = .next t ∧
    t.index.toNat = (s.config.fontBase + 5 * (s.reg x).toNat) % 4096 ∧ UnchangedExcept [.index] s t

/-- `LD B, Vx`: the three decimal digits at `index`, hundreds first, addresses modulo 4096, and no other byte (general
knowledge, decision D2; log 2). -/
def Obligations.DecimalConversionStoresThreeDigits : Prop :=
  ∀ (x : RegNo) (s : State), s.config.admitUnlisted4 = true → ∃ t, exec (.ldB x) s = .next t ∧
    UnchangedExcept [.byte (memAddr s.index 0), .byte (memAddr s.index 1), .byte (memAddr s.index 2)] s t ∧
    (Memory.wf s.config s.mem = true →
      (t.byteAt (memAddr s.index 0)).toNat = (s.reg x).toNat / 100 ∧
      (t.byteAt (memAddr s.index 1)).toNat = (s.reg x).toNat / 10 % 10 ∧
      (t.byteAt (memAddr s.index 2)).toNat = (s.reg x).toNat % 10)

/-- `LD [I], Vx`: `V0` .. `Vx` at ascending addresses from `index`, modulo 4096, and no other byte; `index` moves only
under `LOADSTORE_INC_I` (general knowledge, decisions D2, D23; logs 2, 21). -/
def Obligations.StoreRegistersWritesAscendingBytes : Prop :=
  ∀ (x : RegNo) (s : State), s.config.admitUnlisted4 = true →
    let stored := (regsUpTo x).map fun r => Part.byte (memAddr s.index r.val)
    ∃ t, exec (.storeRegs x) s = .next t ∧
      (Memory.wf s.config s.mem = true → ∀ r ≤ x, t.byteAt (memAddr s.index r.val) = s.reg r) ∧
      (s.config.loadStoreIncI = false → UnchangedExcept stored s t) ∧
      (s.config.loadStoreIncI = true → UnchangedExcept (.index :: stored) s t ∧
        t.index.toNat = (s.index.toNat + x.val + 1) % 4096)

/-- `LD Vx, [I]`: `V0` .. `Vx` from ascending addresses from `index`, modulo 4096; memory and the registers above `x`
stay; `index` moves only under `LOADSTORE_INC_I` (general knowledge, decisions D2, D23; logs 2, 21). -/
def Obligations.LoadRegistersReadsAscendingBytes : Prop :=
  ∀ (x : RegNo) (s : State), s.config.admitUnlisted4 = true →
    ∃ t, exec (.loadRegs x) s = .next t ∧ (∀ r ≤ x, t.reg r = s.byteAt (memAddr s.index r.val)) ∧
      (s.config.loadStoreIncI = false → UnchangedExcept ((regsUpTo x).map Part.reg) s t) ∧
      (s.config.loadStoreIncI = true → UnchangedExcept (.index :: (regsUpTo x).map Part.reg) s t ∧
        t.index.toNat = (s.index.toNat + x.val + 1) % 4096)

/-- Storing registers and loading them back from the same `index` restores them, whatever happened to them in between:
every byte has an address of its own, also across the top of memory. -/
def Obligations.StoredRegistersLoadBack : Prop :=
  ∀ (x : RegNo) (s : State) (v : Vector Byte 16), s.config.admitUnlisted4 = true →
    Memory.wf s.config s.mem = true →
    ∃ t u, exec (.storeRegs x) s = .next t ∧ exec (.loadRegs x) { t with v := v, index := s.index } = .next u ∧
      (∀ r ≤ x, u.reg r = s.reg r) ∧ (∀ r, x < r → u.reg r = v[r])

/-- With `ADMIT_UNLISTED4` off the four unlisted instructions are refused by their own name. -/
def Obligations.UnlistedInstructionsAreRefusedWhenNotAdmitted : Prop :=
  ∀ (x : RegNo) (s : State), s.config.admitUnlisted4 = false →
    exec (.ldF x) s = .refused .unlistedNotAdmitted ∧ exec (.ldB x) s = .refused .unlistedNotAdmitted ∧
    exec (.storeRegs x) s = .refused .unlistedNotAdmitted ∧ exec (.loadRegs x) s = .refused .unlistedNotAdmitted

/-! ## Display -/

/-- `CLS` (43_display.md R150). -/
def Obligations.ClearScreenTurnsEveryPixelOff : Prop :=
  ∀ s : State, ∃ t, exec .cls s = .next t ∧ (∀ px py, Video.pixel t.video px py = false) ∧ UnchangedExcept [.video] s t

/-- `DRW Vx, Vy, n`, pixel by pixel: exactly the pixels under a set bit are inverted, coordinates wrapping at both
edges, and `VF` is 1 iff one of them was on (which bit is which column is decision D7, log 6). -/
def Obligations.DrawInvertsExactlyTheCoveredPixels : Prop :=
  ∀ (x y : RegNo) (n : Fin 16) (s : State), ∃ t, exec (.drw x y n) s = .next t ∧
    (∀ px py, s.SpriteCovers (s.reg x) (s.reg y) n.val px py → Video.pixel t.video px py = !(Video.pixel s.video px py)) ∧
    (∀ px py, ¬ s.SpriteCovers (s.reg x) (s.reg y) n.val px py → Video.pixel t.video px py = Video.pixel s.video px py) ∧
    (t.reg 15 = 0 ∨ t.reg 15 = 1) ∧
    (t.reg 15 = 1 ↔ ∃ px py, s.SpriteCovers (s.reg x) (s.reg y) n.val px py ∧ Video.pixel s.video px py = true) ∧
    UnchangedExcept [.video, .reg 15] s t

/-- The double-draw law (the source's property, 95_test_vectors.md S6; its precise form is the spec's own inference):
drawing the same sprite at the same position twice restores the framebuffer. `VF` after the first draw is 1 iff it turned a pixel off, after the second iff the first turned one on. -/
def Obligations.DoubleDrawRestoresTheFramebuffer : Prop :=
  ∀ (x y p q : RegNo) (n : Fin 16) (s : State), ∃ t, exec (.drw x y n) s = .next t ∧
    (t.reg 15 = if ∃ px py, Video.pixel t.video px py ≠ Video.pixel s.video px py ∧ Video.pixel s.video px py = true
      then 1 else 0) ∧
    (t.reg p = s.reg x → t.reg q = s.reg y →
      ∃ u, exec (.drw p q n) t = .next u ∧ u.video = s.video ∧
        u.reg 15 = if ∃ px py, Video.pixel t.video px py ≠ Video.pixel s.video px py ∧
          Video.pixel s.video px py = false then 1 else 0)

/-! ## Keypad, timers, random -/

/-- `SKP` and `SKNP`: the key `V[x] mod 16` (decision D10, log 9) decides whether 2 more is added to `pc`. -/
def Obligations.KeySkipsTestTheKeyModulo16 : Prop :=
  ∀ (x : RegNo) (s : State) (k : KeyNo), k.val = (s.reg x).toNat % 16 →
    (∃ t, exec (.skp x) s = .next t ∧ UnchangedExcept [.pc] s t ∧
      (s.keyDown k = true → t.pc.toNat = (s.pc.toNat + 2) % 4096) ∧ (s.keyDown k = false → t.pc = s.pc)) ∧
    (∃ t, exec (.sknp x) s = .next t ∧ UnchangedExcept [.pc] s t ∧
      (s.keyDown k = false → t.pc.toNat = (s.pc.toNat + 2) % 4096) ∧ (s.keyDown k = true → t.pc = s.pc))

/-- `LD Vx, K` with a key down, under the default `KEYWAIT_MODE`: the smallest pressed index (decision D11, log 10). -/
def Obligations.WaitForKeyStoresTheSmallestPressedKey : Prop :=
  ∀ (x : RegNo) (k : KeyNo) (s : State), s.config.keywaitMode = .levelLowest → s.keyDown k = true →
    (∀ j < k, s.keyDown j = false) →
    ∃ t, exec (.ldVxK x) s = .next t ∧ (t.reg x).toNat = k.val ∧ UnchangedExcept [.reg x] s t

/-- `LD Vx, K` with a key down, under the conservative `KEYWAIT_MODE`: some pressed key, no more is known (log 10). -/
def Obligations.WaitForKeyStoresSomePressedKey : Prop :=
  ∀ (x : RegNo) (s : State), s.config.keywaitMode = .levelAny → (∃ k, s.keyDown k = true) →
    ∃ t k, exec (.ldVxK x) s = .next t ∧ s.keyDown k = true ∧ (t.reg x).toNat = k.val ∧
      UnchangedExcept [.reg x, .freeDraws] s t

/-- `LD Vx, K` with no key down: `pc` goes back by 2 modulo 4096 and nothing else changes. -/
def Obligations.WaitForKeyRewindsWithNoKeyDown : Prop :=
  ∀ (x : RegNo) (s : State), (∀ k, s.keyDown k = false) →
    ∃ t, exec (.ldVxK x) s = .next t ∧ t.pc.toNat = (s.pc.toNat + 4094) % 4096 ∧ UnchangedExcept [.pc] s t

/-- `LD Vx, DT`, `LD DT, Vx`, `LD ST, Vx` (44_keypad_timers_entropy.md R162, R164, R165). -/
def Obligations.TimerInstructionsMoveTheByte : Prop :=
  ∀ (x : RegNo) (s : State),
    (∃ t, exec (.ldVxDt x) s = .next t ∧ t.reg x = s.delayTimer ∧ UnchangedExcept [.reg x] s t) ∧
    (∃ t, exec (.ldDtVx x) s = .next t ∧ t.delayTimer = s.reg x ∧ UnchangedExcept [.delayTimer] s t) ∧
    (∃ t, exec (.ldStVx x) s = .next t ∧ t.soundTimer = s.reg x ∧ (t.soundOn = true ↔ s.reg x ≠ 0) ∧
      UnchangedExcept [.soundTimer] s t)

/-- `RND Vx, kk` (44_keypad_timers_entropy.md section 4): exactly one draw, ANDed with `kk`. It holds of every draw. That
a draw is the next byte a test supplied, or else a free byte, and that draws are counted, is the model's form of the
entropy source (decision D16, log 14, a DESIGN CHOICE). -/
def Obligations.RandomAndsOneDraw : Prop :=
  ∀ (x : RegNo) (kk : Byte) (s : State), ∃ t r, exec (.rnd x kk) s = .next t ∧ t.reg x = r &&& kk ∧
    t.reg x &&& ~~~kk = 0 ∧ t.entropy.draws = s.entropy.draws + 1 ∧ t.entropy.seed = s.entropy.seed ∧
    (∀ b rest, s.entropy.supplied = b :: rest → r = b ∧ t.entropy.supplied = rest) ∧
    UnchangedExcept [.reg x, .entropy] s t

/-! ## The host -/

/-- `Tick()` counts both timers down, never below 0 (that one tick moves both is decision D17, log 16); `SetKey(k, b)`
sets that key. Both act on a faulted core too, and change nothing else. -/
def Obligations.TickAndSetKeyChangeOnlyTheirOwnState : Prop :=
  ∀ (k : KeyNo) (b : Bool) (s : State),
    (∃ t, move .tick s = .next (t, .done) ∧ t.delayTimer.toNat = s.delayTimer.toNat - 1 ∧
      t.soundTimer.toNat = s.soundTimer.toNat - 1 ∧ UnchangedExcept [.delayTimer, .soundTimer] s t) ∧
    (∃ t, move (.setKey k b) s = .next (t, .done) ∧ t.keyDown k = b ∧ (∀ j, j ≠ k → t.keyDown j = s.keyDown j) ∧
      UnchangedExcept [.keypad] s t)

/-- `LoadROM(bytes)` (20_memory.md R54): all or nothing, at 0x200 upward, every other byte left alone (the name of the
rejection is decision D19, log 17). -/
def Obligations.LoadRomIsAllOrNothing : Prop :=
  ∀ (bytes : List Byte) (s : State),
    (bytes.length ≤ 3584 → ∃ t, move (.loadRom bytes) s = .next (t, .done) ∧
      (Memory.wf s.config s.mem = true → ∀ (j : Nat) (h : j < bytes.length), t.byteAt (0x200 + j) = bytes[j]) ∧
      UnchangedExcept ((List.range bytes.length).map fun j => .byte (0x200 + j)) s t) ∧
    (3584 < bytes.length → move (.loadRom bytes) s = .next (s, .romTooLarge))
end

