-- ==== Sys2Proof/Laws/Decode.lean ====
section
/-! SUPPORT. The decoder and the encoder field by field. -/

namespace Sys2Proof

/-! ## The fields of an encoded word -/

@[simp] theorem fieldFam_encodeXK (f : BitVec 4) (x : RegNo) (k : Byte) : fieldFam (encodeXK f x k) = f := by
  apply BitVec.eq_of_getLsbD_eq
  intro i hi
  simp only [fieldFam, encodeXK, BitVec.getLsbD_extractLsb', BitVec.getLsbD_append]
  simp [hi, show ¬ (12 + i < 8) by omega, show ¬ (12 + i - 8 < 4) by omega, show 12 + i - 8 - 4 = i by omega]

@[simp] theorem fieldX_encodeXK (f : BitVec 4) (x : RegNo) (k : Byte) : fieldX (encodeXK f x k) = x := by
  have h : (encodeXK f x k).extractLsb' 8 4 = BitVec.ofFin (w := 4) x := by
    apply BitVec.eq_of_getLsbD_eq
    intro i hi
    simp only [encodeXK, BitVec.getLsbD_extractLsb', BitVec.getLsbD_append]
    simp [hi, show ¬ (8 + i < 8) by omega, show 8 + i - 8 = i by omega]
  simp only [fieldX, h]
  rfl

@[simp] theorem fieldKk_encodeXK (f : BitVec 4) (x : RegNo) (k : Byte) : fieldKk (encodeXK f x k) = k := by
  apply BitVec.eq_of_getLsbD_eq
  intro i hi
  simp only [fieldKk, encodeXK, BitVec.getLsbD_extractLsb', BitVec.getLsbD_append]
  simp [hi]

@[simp] theorem fieldFam_encodeXYN (f : BitVec 4) (x y : RegNo) (n : BitVec 4) :
    fieldFam (encodeXYN f x y n) = f := by
  apply BitVec.eq_of_getLsbD_eq
  intro i hi
  simp only [fieldFam, encodeXYN, BitVec.getLsbD_extractLsb', BitVec.getLsbD_append]
  simp [hi, show ¬ (12 + i < 4) by omega, show ¬ (12 + i - 4 < 4) by omega, show ¬ (12 + i - 4 - 4 < 4) by omega,
    show 12 + i - 4 - 4 - 4 = i by omega]

@[simp] theorem fieldX_encodeXYN (f : BitVec 4) (x y : RegNo) (n : BitVec 4) : fieldX (encodeXYN f x y n) = x := by
  have h : (encodeXYN f x y n).extractLsb' 8 4 = BitVec.ofFin (w := 4) x := by
    apply BitVec.eq_of_getLsbD_eq
    intro i hi
    simp only [encodeXYN, BitVec.getLsbD_extractLsb', BitVec.getLsbD_append]
    simp [hi, show ¬ (8 + i < 4) by omega, show ¬ (8 + i - 4 < 4) by omega, show 8 + i - 4 - 4 = i by omega]
  simp only [fieldX, h]
  rfl

@[simp] theorem fieldY_encodeXYN (f : BitVec 4) (x y : RegNo) (n : BitVec 4) : fieldY (encodeXYN f x y n) = y := by
  have h : (encodeXYN f x y n).extractLsb' 4 4 = BitVec.ofFin (w := 4) y := by
    apply BitVec.eq_of_getLsbD_eq
    intro i hi
    simp only [encodeXYN, BitVec.getLsbD_extractLsb', BitVec.getLsbD_append]
    simp [hi, show ¬ (4 + i < 4) by omega, show 4 + i - 4 = i by omega]
  simp only [fieldY, h]
  rfl

@[simp] theorem fieldN_encodeXYN (f : BitVec 4) (x y : RegNo) (n : BitVec 4) :
    (fieldN (encodeXYN f x y n)).val = n.toNat := by
  have h : (encodeXYN f x y n).extractLsb' 0 4 = n := by
    apply BitVec.eq_of_getLsbD_eq
    intro i hi
    simp only [encodeXYN, BitVec.getLsbD_extractLsb', BitVec.getLsbD_append]
    simp [hi]
  simp only [fieldN, h]

@[simp] theorem fieldFam_encodeA (f : BitVec 4) (nnn : Imm12) : fieldFam (encodeA f nnn) = f := by
  apply BitVec.eq_of_getLsbD_eq
  intro i hi
  simp only [fieldFam, encodeA, BitVec.getLsbD_extractLsb', BitVec.getLsbD_append]
  simp [hi, show 12 + i - 12 = i by omega]

@[simp] theorem fieldNnn_encodeA (f : BitVec 4) (nnn : Imm12) : fieldNnn (encodeA f nnn) = nnn := by
  apply BitVec.eq_of_getLsbD_eq
  intro i hi
  simp only [fieldNnn, encodeA, BitVec.getLsbD_extractLsb', BitVec.getLsbD_append]
  simp [hi]

/-! ## Bytes and words -/

/-- Splitting a word into its two bytes and joining them big-endian gives it back. -/
@[simp] theorem bigEndian_split (w : Word) : bigEndian (w.extractLsb' 8 8) (w.extractLsb' 0 8) = w := by
  apply BitVec.eq_of_getLsbD_eq
  intro i hi
  simp only [bigEndian, BitVec.getLsbD_append, BitVec.getLsbD_extractLsb']
  by_cases h : i < 8
  · simp [h]
  · simp [h, show i - 8 < 8 by omega, show 8 + (i - 8) = i by omega]

/-- The decoder on two or more bytes is the decoder on the word they make. -/
theorem decode_cons_cons (hi lo : Byte) (rest : List Byte) :
    decode (hi :: lo :: rest) = (decodeWord (bigEndian hi lo)).map fun i => (i, rest) := by
  simp only [decode]
  cases decodeWord (bigEndian hi lo) <;> rfl

/-- The decoder's only error on a word names it. -/
theorem decodeWord_error {w : Word} {e : DecodeError} (h : decodeWord w = .error e) : e = .unknownOpcode w := by
  unfold decodeWord decodeFamily0 decodeFamily8 decodeFamilyE decodeFamilyF at h
  repeat' (first | (cases h; rfl) | cases h | split at h)

end Sys2Proof
end

