-- ==== Sys2Proof/Laws/State.lean ====
section
/-! SUPPORT. One lemma per field per update, so that no proof unfolds a record update. -/

namespace Sys2Proof.Machine

variable (s : State)

/-! ## setReg -/

@[simp] theorem setReg_mem (x : RegNo) (b : Byte) : (s.setReg x b).mem = s.mem := rfl
@[simp] theorem setReg_v (x : RegNo) (b : Byte) : (s.setReg x b).v = s.v.set x b := rfl
@[simp] theorem setReg_index (x : RegNo) (b : Byte) : (s.setReg x b).index = s.index := rfl
@[simp] theorem setReg_pc (x : RegNo) (b : Byte) : (s.setReg x b).pc = s.pc := rfl
@[simp] theorem setReg_stack (x : RegNo) (b : Byte) : (s.setReg x b).stack = s.stack := rfl
@[simp] theorem setReg_sp (x : RegNo) (b : Byte) : (s.setReg x b).sp = s.sp := rfl
@[simp] theorem setReg_delayTimer (x : RegNo) (b : Byte) : (s.setReg x b).delayTimer = s.delayTimer := rfl
@[simp] theorem setReg_soundTimer (x : RegNo) (b : Byte) : (s.setReg x b).soundTimer = s.soundTimer := rfl
@[simp] theorem setReg_keypad (x : RegNo) (b : Byte) : (s.setReg x b).keypad = s.keypad := rfl
@[simp] theorem setReg_video (x : RegNo) (b : Byte) : (s.setReg x b).video = s.video := rfl
@[simp] theorem setReg_opcode (x : RegNo) (b : Byte) : (s.setReg x b).opcode = s.opcode := rfl
@[simp] theorem setReg_entropy (x : RegNo) (b : Byte) : (s.setReg x b).entropy = s.entropy := rfl
@[simp] theorem setReg_fault (x : RegNo) (b : Byte) : (s.setReg x b).fault = s.fault := rfl
@[simp] theorem setReg_config (x : RegNo) (b : Byte) : (s.setReg x b).config = s.config := rfl
@[simp] theorem setReg_freeDraws (x : RegNo) (b : Byte) : (s.setReg x b).freeDraws = s.freeDraws := rfl
@[simp] theorem setReg_byteAt (x : RegNo) (b : Byte) (i : Nat) : (s.setReg x b).byteAt i = s.byteAt i := rfl
@[simp] theorem setReg_memRead (x : RegNo) (b : Byte) (base : Word) (i : Nat) : (s.setReg x b).memRead base i = s.memRead base i := rfl
@[simp] theorem setReg_pressedKeys (x : RegNo) (b : Byte) : (s.setReg x b).pressedKeys = s.pressedKeys := rfl

/-! ## setPc -/

@[simp] theorem setPc_mem (a : Word) : (s.setPc a).mem = s.mem := rfl
@[simp] theorem setPc_v (a : Word) : (s.setPc a).v = s.v := rfl
@[simp] theorem setPc_index (a : Word) : (s.setPc a).index = s.index := rfl
@[simp] theorem setPc_pc (a : Word) : (s.setPc a).pc = a := rfl
@[simp] theorem setPc_stack (a : Word) : (s.setPc a).stack = s.stack := rfl
@[simp] theorem setPc_sp (a : Word) : (s.setPc a).sp = s.sp := rfl
@[simp] theorem setPc_delayTimer (a : Word) : (s.setPc a).delayTimer = s.delayTimer := rfl
@[simp] theorem setPc_soundTimer (a : Word) : (s.setPc a).soundTimer = s.soundTimer := rfl
@[simp] theorem setPc_keypad (a : Word) : (s.setPc a).keypad = s.keypad := rfl
@[simp] theorem setPc_video (a : Word) : (s.setPc a).video = s.video := rfl
@[simp] theorem setPc_opcode (a : Word) : (s.setPc a).opcode = s.opcode := rfl
@[simp] theorem setPc_entropy (a : Word) : (s.setPc a).entropy = s.entropy := rfl
@[simp] theorem setPc_fault (a : Word) : (s.setPc a).fault = s.fault := rfl
@[simp] theorem setPc_config (a : Word) : (s.setPc a).config = s.config := rfl
@[simp] theorem setPc_freeDraws (a : Word) : (s.setPc a).freeDraws = s.freeDraws := rfl
@[simp] theorem setPc_reg (a : Word) (r : RegNo) : (s.setPc a).reg r = s.reg r := rfl
@[simp] theorem setPc_byteAt (a : Word) (i : Nat) : (s.setPc a).byteAt i = s.byteAt i := rfl
@[simp] theorem setPc_memRead (a : Word) (base : Word) (i : Nat) : (s.setPc a).memRead base i = s.memRead base i := rfl
@[simp] theorem setPc_pressedKeys (a : Word) : (s.setPc a).pressedKeys = s.pressedKeys := rfl

/-! ## setIndex -/

@[simp] theorem setIndex_mem (a : Word) : (s.setIndex a).mem = s.mem := rfl
@[simp] theorem setIndex_v (a : Word) : (s.setIndex a).v = s.v := rfl
@[simp] theorem setIndex_index (a : Word) : (s.setIndex a).index = a := rfl
@[simp] theorem setIndex_pc (a : Word) : (s.setIndex a).pc = s.pc := rfl
@[simp] theorem setIndex_stack (a : Word) : (s.setIndex a).stack = s.stack := rfl
@[simp] theorem setIndex_sp (a : Word) : (s.setIndex a).sp = s.sp := rfl
@[simp] theorem setIndex_delayTimer (a : Word) : (s.setIndex a).delayTimer = s.delayTimer := rfl
@[simp] theorem setIndex_soundTimer (a : Word) : (s.setIndex a).soundTimer = s.soundTimer := rfl
@[simp] theorem setIndex_keypad (a : Word) : (s.setIndex a).keypad = s.keypad := rfl
@[simp] theorem setIndex_video (a : Word) : (s.setIndex a).video = s.video := rfl
@[simp] theorem setIndex_opcode (a : Word) : (s.setIndex a).opcode = s.opcode := rfl
@[simp] theorem setIndex_entropy (a : Word) : (s.setIndex a).entropy = s.entropy := rfl
@[simp] theorem setIndex_fault (a : Word) : (s.setIndex a).fault = s.fault := rfl
@[simp] theorem setIndex_config (a : Word) : (s.setIndex a).config = s.config := rfl
@[simp] theorem setIndex_freeDraws (a : Word) : (s.setIndex a).freeDraws = s.freeDraws := rfl
@[simp] theorem setIndex_reg (a : Word) (r : RegNo) : (s.setIndex a).reg r = s.reg r := rfl
@[simp] theorem setIndex_byteAt (a : Word) (i : Nat) : (s.setIndex a).byteAt i = s.byteAt i := rfl
@[simp] theorem setIndex_memRead (a : Word) (base : Word) (i : Nat) : (s.setIndex a).memRead base i = s.memRead base i := rfl
@[simp] theorem setIndex_pressedKeys (a : Word) : (s.setIndex a).pressedKeys = s.pressedKeys := rfl

/-! ## setDelay -/

@[simp] theorem setDelay_mem (b : Byte) : (s.setDelay b).mem = s.mem := rfl
@[simp] theorem setDelay_v (b : Byte) : (s.setDelay b).v = s.v := rfl
@[simp] theorem setDelay_index (b : Byte) : (s.setDelay b).index = s.index := rfl
@[simp] theorem setDelay_pc (b : Byte) : (s.setDelay b).pc = s.pc := rfl
@[simp] theorem setDelay_stack (b : Byte) : (s.setDelay b).stack = s.stack := rfl
@[simp] theorem setDelay_sp (b : Byte) : (s.setDelay b).sp = s.sp := rfl
@[simp] theorem setDelay_delayTimer (b : Byte) : (s.setDelay b).delayTimer = b := rfl
@[simp] theorem setDelay_soundTimer (b : Byte) : (s.setDelay b).soundTimer = s.soundTimer := rfl
@[simp] theorem setDelay_keypad (b : Byte) : (s.setDelay b).keypad = s.keypad := rfl
@[simp] theorem setDelay_video (b : Byte) : (s.setDelay b).video = s.video := rfl
@[simp] theorem setDelay_opcode (b : Byte) : (s.setDelay b).opcode = s.opcode := rfl
@[simp] theorem setDelay_entropy (b : Byte) : (s.setDelay b).entropy = s.entropy := rfl
@[simp] theorem setDelay_fault (b : Byte) : (s.setDelay b).fault = s.fault := rfl
@[simp] theorem setDelay_config (b : Byte) : (s.setDelay b).config = s.config := rfl
@[simp] theorem setDelay_freeDraws (b : Byte) : (s.setDelay b).freeDraws = s.freeDraws := rfl
@[simp] theorem setDelay_reg (b : Byte) (r : RegNo) : (s.setDelay b).reg r = s.reg r := rfl
@[simp] theorem setDelay_byteAt (b : Byte) (i : Nat) : (s.setDelay b).byteAt i = s.byteAt i := rfl
@[simp] theorem setDelay_memRead (b : Byte) (base : Word) (i : Nat) : (s.setDelay b).memRead base i = s.memRead base i := rfl
@[simp] theorem setDelay_pressedKeys (b : Byte) : (s.setDelay b).pressedKeys = s.pressedKeys := rfl

/-! ## setSound -/

@[simp] theorem setSound_mem (b : Byte) : (s.setSound b).mem = s.mem := rfl
@[simp] theorem setSound_v (b : Byte) : (s.setSound b).v = s.v := rfl
@[simp] theorem setSound_index (b : Byte) : (s.setSound b).index = s.index := rfl
@[simp] theorem setSound_pc (b : Byte) : (s.setSound b).pc = s.pc := rfl
@[simp] theorem setSound_stack (b : Byte) : (s.setSound b).stack = s.stack := rfl
@[simp] theorem setSound_sp (b : Byte) : (s.setSound b).sp = s.sp := rfl
@[simp] theorem setSound_delayTimer (b : Byte) : (s.setSound b).delayTimer = s.delayTimer := rfl
@[simp] theorem setSound_soundTimer (b : Byte) : (s.setSound b).soundTimer = b := rfl
@[simp] theorem setSound_keypad (b : Byte) : (s.setSound b).keypad = s.keypad := rfl
@[simp] theorem setSound_video (b : Byte) : (s.setSound b).video = s.video := rfl
@[simp] theorem setSound_opcode (b : Byte) : (s.setSound b).opcode = s.opcode := rfl
@[simp] theorem setSound_entropy (b : Byte) : (s.setSound b).entropy = s.entropy := rfl
@[simp] theorem setSound_fault (b : Byte) : (s.setSound b).fault = s.fault := rfl
@[simp] theorem setSound_config (b : Byte) : (s.setSound b).config = s.config := rfl
@[simp] theorem setSound_freeDraws (b : Byte) : (s.setSound b).freeDraws = s.freeDraws := rfl
@[simp] theorem setSound_reg (b : Byte) (r : RegNo) : (s.setSound b).reg r = s.reg r := rfl
@[simp] theorem setSound_byteAt (b : Byte) (i : Nat) : (s.setSound b).byteAt i = s.byteAt i := rfl
@[simp] theorem setSound_memRead (b : Byte) (base : Word) (i : Nat) : (s.setSound b).memRead base i = s.memRead base i := rfl
@[simp] theorem setSound_pressedKeys (b : Byte) : (s.setSound b).pressedKeys = s.pressedKeys := rfl

/-! ## setVideo -/

@[simp] theorem setVideo_mem (d : Video) : (s.setVideo d).mem = s.mem := rfl
@[simp] theorem setVideo_v (d : Video) : (s.setVideo d).v = s.v := rfl
@[simp] theorem setVideo_index (d : Video) : (s.setVideo d).index = s.index := rfl
@[simp] theorem setVideo_pc (d : Video) : (s.setVideo d).pc = s.pc := rfl
@[simp] theorem setVideo_stack (d : Video) : (s.setVideo d).stack = s.stack := rfl
@[simp] theorem setVideo_sp (d : Video) : (s.setVideo d).sp = s.sp := rfl
@[simp] theorem setVideo_delayTimer (d : Video) : (s.setVideo d).delayTimer = s.delayTimer := rfl
@[simp] theorem setVideo_soundTimer (d : Video) : (s.setVideo d).soundTimer = s.soundTimer := rfl
@[simp] theorem setVideo_keypad (d : Video) : (s.setVideo d).keypad = s.keypad := rfl
@[simp] theorem setVideo_video (d : Video) : (s.setVideo d).video = d := rfl
@[simp] theorem setVideo_opcode (d : Video) : (s.setVideo d).opcode = s.opcode := rfl
@[simp] theorem setVideo_entropy (d : Video) : (s.setVideo d).entropy = s.entropy := rfl
@[simp] theorem setVideo_fault (d : Video) : (s.setVideo d).fault = s.fault := rfl
@[simp] theorem setVideo_config (d : Video) : (s.setVideo d).config = s.config := rfl
@[simp] theorem setVideo_freeDraws (d : Video) : (s.setVideo d).freeDraws = s.freeDraws := rfl
@[simp] theorem setVideo_reg (d : Video) (r : RegNo) : (s.setVideo d).reg r = s.reg r := rfl
@[simp] theorem setVideo_byteAt (d : Video) (i : Nat) : (s.setVideo d).byteAt i = s.byteAt i := rfl
@[simp] theorem setVideo_memRead (d : Video) (base : Word) (i : Nat) : (s.setVideo d).memRead base i = s.memRead base i := rfl
@[simp] theorem setVideo_pressedKeys (d : Video) : (s.setVideo d).pressedKeys = s.pressedKeys := rfl

/-! ## setEntropy -/

@[simp] theorem setEntropy_mem (e : Entropy) : (s.setEntropy e).mem = s.mem := rfl
@[simp] theorem setEntropy_v (e : Entropy) : (s.setEntropy e).v = s.v := rfl
@[simp] theorem setEntropy_index (e : Entropy) : (s.setEntropy e).index = s.index := rfl
@[simp] theorem setEntropy_pc (e : Entropy) : (s.setEntropy e).pc = s.pc := rfl
@[simp] theorem setEntropy_stack (e : Entropy) : (s.setEntropy e).stack = s.stack := rfl
@[simp] theorem setEntropy_sp (e : Entropy) : (s.setEntropy e).sp = s.sp := rfl
@[simp] theorem setEntropy_delayTimer (e : Entropy) : (s.setEntropy e).delayTimer = s.delayTimer := rfl
@[simp] theorem setEntropy_soundTimer (e : Entropy) : (s.setEntropy e).soundTimer = s.soundTimer := rfl
@[simp] theorem setEntropy_keypad (e : Entropy) : (s.setEntropy e).keypad = s.keypad := rfl
@[simp] theorem setEntropy_video (e : Entropy) : (s.setEntropy e).video = s.video := rfl
@[simp] theorem setEntropy_opcode (e : Entropy) : (s.setEntropy e).opcode = s.opcode := rfl
@[simp] theorem setEntropy_entropy (e : Entropy) : (s.setEntropy e).entropy = e := rfl
@[simp] theorem setEntropy_fault (e : Entropy) : (s.setEntropy e).fault = s.fault := rfl
@[simp] theorem setEntropy_config (e : Entropy) : (s.setEntropy e).config = s.config := rfl
@[simp] theorem setEntropy_freeDraws (e : Entropy) : (s.setEntropy e).freeDraws = s.freeDraws := rfl
@[simp] theorem setEntropy_reg (e : Entropy) (r : RegNo) : (s.setEntropy e).reg r = s.reg r := rfl
@[simp] theorem setEntropy_byteAt (e : Entropy) (i : Nat) : (s.setEntropy e).byteAt i = s.byteAt i := rfl
@[simp] theorem setEntropy_memRead (e : Entropy) (base : Word) (i : Nat) : (s.setEntropy e).memRead base i = s.memRead base i := rfl
@[simp] theorem setEntropy_pressedKeys (e : Entropy) : (s.setEntropy e).pressedKeys = s.pressedKeys := rfl

/-! ## setByteAt -/

@[simp] theorem setByteAt_mem (a : Nat) (b : Byte) : (s.setByteAt a b).mem = Memory.store s.mem a b (resetByte s.config a) := rfl
@[simp] theorem setByteAt_v (a : Nat) (b : Byte) : (s.setByteAt a b).v = s.v := rfl
@[simp] theorem setByteAt_index (a : Nat) (b : Byte) : (s.setByteAt a b).index = s.index := rfl
@[simp] theorem setByteAt_pc (a : Nat) (b : Byte) : (s.setByteAt a b).pc = s.pc := rfl
@[simp] theorem setByteAt_stack (a : Nat) (b : Byte) : (s.setByteAt a b).stack = s.stack := rfl
@[simp] theorem setByteAt_sp (a : Nat) (b : Byte) : (s.setByteAt a b).sp = s.sp := rfl
@[simp] theorem setByteAt_delayTimer (a : Nat) (b : Byte) : (s.setByteAt a b).delayTimer = s.delayTimer := rfl
@[simp] theorem setByteAt_soundTimer (a : Nat) (b : Byte) : (s.setByteAt a b).soundTimer = s.soundTimer := rfl
@[simp] theorem setByteAt_keypad (a : Nat) (b : Byte) : (s.setByteAt a b).keypad = s.keypad := rfl
@[simp] theorem setByteAt_video (a : Nat) (b : Byte) : (s.setByteAt a b).video = s.video := rfl
@[simp] theorem setByteAt_opcode (a : Nat) (b : Byte) : (s.setByteAt a b).opcode = s.opcode := rfl
@[simp] theorem setByteAt_entropy (a : Nat) (b : Byte) : (s.setByteAt a b).entropy = s.entropy := rfl
@[simp] theorem setByteAt_fault (a : Nat) (b : Byte) : (s.setByteAt a b).fault = s.fault := rfl
@[simp] theorem setByteAt_config (a : Nat) (b : Byte) : (s.setByteAt a b).config = s.config := rfl
@[simp] theorem setByteAt_freeDraws (a : Nat) (b : Byte) : (s.setByteAt a b).freeDraws = s.freeDraws := rfl
@[simp] theorem setByteAt_reg (a : Nat) (b : Byte) (r : RegNo) : (s.setByteAt a b).reg r = s.reg r := rfl
@[simp] theorem setByteAt_pressedKeys (a : Nat) (b : Byte) : (s.setByteAt a b).pressedKeys = s.pressedKeys := rfl

/-! ## setKey -/

@[simp] theorem setKey_mem (k : KeyNo) (b : Bool) : (s.setKey k b).mem = s.mem := rfl
@[simp] theorem setKey_v (k : KeyNo) (b : Bool) : (s.setKey k b).v = s.v := rfl
@[simp] theorem setKey_index (k : KeyNo) (b : Bool) : (s.setKey k b).index = s.index := rfl
@[simp] theorem setKey_pc (k : KeyNo) (b : Bool) : (s.setKey k b).pc = s.pc := rfl
@[simp] theorem setKey_stack (k : KeyNo) (b : Bool) : (s.setKey k b).stack = s.stack := rfl
@[simp] theorem setKey_sp (k : KeyNo) (b : Bool) : (s.setKey k b).sp = s.sp := rfl
@[simp] theorem setKey_delayTimer (k : KeyNo) (b : Bool) : (s.setKey k b).delayTimer = s.delayTimer := rfl
@[simp] theorem setKey_soundTimer (k : KeyNo) (b : Bool) : (s.setKey k b).soundTimer = s.soundTimer := rfl
@[simp] theorem setKey_keypad (k : KeyNo) (b : Bool) : (s.setKey k b).keypad = s.keypad.set k b := rfl
@[simp] theorem setKey_video (k : KeyNo) (b : Bool) : (s.setKey k b).video = s.video := rfl
@[simp] theorem setKey_opcode (k : KeyNo) (b : Bool) : (s.setKey k b).opcode = s.opcode := rfl
@[simp] theorem setKey_entropy (k : KeyNo) (b : Bool) : (s.setKey k b).entropy = s.entropy := rfl
@[simp] theorem setKey_fault (k : KeyNo) (b : Bool) : (s.setKey k b).fault = s.fault := rfl
@[simp] theorem setKey_config (k : KeyNo) (b : Bool) : (s.setKey k b).config = s.config := rfl
@[simp] theorem setKey_freeDraws (k : KeyNo) (b : Bool) : (s.setKey k b).freeDraws = s.freeDraws := rfl
@[simp] theorem setKey_reg (k : KeyNo) (b : Bool) (r : RegNo) : (s.setKey k b).reg r = s.reg r := rfl
@[simp] theorem setKey_byteAt (k : KeyNo) (b : Bool) (i : Nat) : (s.setKey k b).byteAt i = s.byteAt i := rfl
@[simp] theorem setKey_memRead (k : KeyNo) (b : Bool) (base : Word) (i : Nat) : (s.setKey k b).memRead base i = s.memRead base i := rfl

/-! ## raise -/

@[simp] theorem raise_mem (e : Fault) : (raise e s).mem = s.mem := rfl
@[simp] theorem raise_v (e : Fault) : (raise e s).v = s.v := rfl
@[simp] theorem raise_index (e : Fault) : (raise e s).index = s.index := rfl
@[simp] theorem raise_pc (e : Fault) : (raise e s).pc = s.pc := rfl
@[simp] theorem raise_stack (e : Fault) : (raise e s).stack = s.stack := rfl
@[simp] theorem raise_sp (e : Fault) : (raise e s).sp = s.sp := rfl
@[simp] theorem raise_delayTimer (e : Fault) : (raise e s).delayTimer = s.delayTimer := rfl
@[simp] theorem raise_soundTimer (e : Fault) : (raise e s).soundTimer = s.soundTimer := rfl
@[simp] theorem raise_keypad (e : Fault) : (raise e s).keypad = s.keypad := rfl
@[simp] theorem raise_video (e : Fault) : (raise e s).video = s.video := rfl
@[simp] theorem raise_opcode (e : Fault) : (raise e s).opcode = s.opcode := rfl
@[simp] theorem raise_entropy (e : Fault) : (raise e s).entropy = s.entropy := rfl
@[simp] theorem raise_fault (e : Fault) : (raise e s).fault = some e := rfl
@[simp] theorem raise_config (e : Fault) : (raise e s).config = s.config := rfl
@[simp] theorem raise_freeDraws (e : Fault) : (raise e s).freeDraws = s.freeDraws := rfl
@[simp] theorem raise_reg (e : Fault) (r : RegNo) : (raise e s).reg r = s.reg r := rfl
@[simp] theorem raise_byteAt (e : Fault) (i : Nat) : (raise e s).byteAt i = s.byteAt i := rfl
@[simp] theorem raise_memRead (e : Fault) (base : Word) (i : Nat) : (raise e s).memRead base i = s.memRead base i := rfl
@[simp] theorem raise_pressedKeys (e : Fault) : (raise e s).pressedKeys = s.pressedKeys := rfl

/-! ## freeChoice -/

@[simp] theorem freeChoice_mem : s.freeChoice.2.mem = s.mem := rfl
@[simp] theorem freeChoice_v : s.freeChoice.2.v = s.v := rfl
@[simp] theorem freeChoice_index : s.freeChoice.2.index = s.index := rfl
@[simp] theorem freeChoice_pc : s.freeChoice.2.pc = s.pc := rfl
@[simp] theorem freeChoice_stack : s.freeChoice.2.stack = s.stack := rfl
@[simp] theorem freeChoice_sp : s.freeChoice.2.sp = s.sp := rfl
@[simp] theorem freeChoice_delayTimer : s.freeChoice.2.delayTimer = s.delayTimer := rfl
@[simp] theorem freeChoice_soundTimer : s.freeChoice.2.soundTimer = s.soundTimer := rfl
@[simp] theorem freeChoice_keypad : s.freeChoice.2.keypad = s.keypad := rfl
@[simp] theorem freeChoice_video : s.freeChoice.2.video = s.video := rfl
@[simp] theorem freeChoice_opcode : s.freeChoice.2.opcode = s.opcode := rfl
@[simp] theorem freeChoice_entropy : s.freeChoice.2.entropy = s.entropy := rfl
@[simp] theorem freeChoice_fault : s.freeChoice.2.fault = s.fault := rfl
@[simp] theorem freeChoice_config : s.freeChoice.2.config = s.config := rfl
@[simp] theorem freeChoice_freeDraws : s.freeChoice.2.freeDraws = s.freeDraws + 1 := rfl
@[simp] theorem freeChoice_reg (r : RegNo) : s.freeChoice.2.reg r = s.reg r := rfl
@[simp] theorem freeChoice_byteAt (i : Nat) : s.freeChoice.2.byteAt i = s.byteAt i := rfl
@[simp] theorem freeChoice_memRead (base : Word) (i : Nat) : s.freeChoice.2.memRead base i = s.memRead base i := rfl
@[simp] theorem freeChoice_pressedKeys : s.freeChoice.2.pressedKeys = s.pressedKeys := rfl

/-! ## The fetch -/

@[simp] theorem fetched_mem : s.fetched.mem = s.mem := rfl
@[simp] theorem fetched_v : s.fetched.v = s.v := rfl
@[simp] theorem fetched_index : s.fetched.index = s.index := rfl
@[simp] theorem fetched_pc : s.fetched.pc = addrAdd s.pc 2 := rfl
@[simp] theorem fetched_stack : s.fetched.stack = s.stack := rfl
@[simp] theorem fetched_sp : s.fetched.sp = s.sp := rfl
@[simp] theorem fetched_delayTimer : s.fetched.delayTimer = s.delayTimer := rfl
@[simp] theorem fetched_soundTimer : s.fetched.soundTimer = s.soundTimer := rfl
@[simp] theorem fetched_keypad : s.fetched.keypad = s.keypad := rfl
@[simp] theorem fetched_video : s.fetched.video = s.video := rfl
@[simp] theorem fetched_opcode : s.fetched.opcode = s.fetchWord := rfl
@[simp] theorem fetched_entropy : s.fetched.entropy = s.entropy := rfl
@[simp] theorem fetched_fault : s.fetched.fault = s.fault := rfl
@[simp] theorem fetched_config : s.fetched.config = s.config := rfl
@[simp] theorem fetched_freeDraws : s.fetched.freeDraws = s.freeDraws := rfl
@[simp] theorem fetched_reg (r : RegNo) : s.fetched.reg r = s.reg r := rfl
@[simp] theorem fetched_byteAt (i : Nat) : s.fetched.byteAt i = s.byteAt i := rfl
@[simp] theorem fetched_memRead (base : Word) (i : Nat) : s.fetched.memRead base i = s.memRead base i := rfl
@[simp] theorem fetched_pressedKeys : s.fetched.pressedKeys = s.pressedKeys := rfl

/-! ## Reading the register just written -/

theorem setReg_reg (x r : RegNo) (b : Byte) : (s.setReg x b).reg r = if x = r then b else s.reg r := by
  simp [State.setReg, State.reg, Vector.getElem_set, Fin.ext_iff]

@[simp] theorem setReg_reg_self (x : RegNo) (b : Byte) : (s.setReg x b).reg x = b := by simp [setReg_reg]

@[simp] theorem setReg_reg_ne {x r : RegNo} (h : x ≠ r) (b : Byte) : (s.setReg x b).reg r = s.reg r := by
  simp [setReg_reg, h]

@[simp] theorem setKey_keyDown_self (k : KeyNo) (b : Bool) : (s.setKey k b).keyDown k = b := by
  simp [State.setKey, State.keyDown]

@[simp] theorem setKey_keyDown_ne {k j : KeyNo} (h : k ≠ j) (b : Bool) : (s.setKey k b).keyDown j = s.keyDown j := by
  simp [State.setKey, State.keyDown, Fin.val_ne_of_ne h]

end Sys2Proof.Machine
end

