-- ==== Sys2Proof/Laws/Memory.lean ====
section
/-! SUPPORT. The laws of memory: read after write, every other address left alone, the canonical form kept. -/

namespace Sys2Proof.Machine

/-! ## The list of cells -/

theorem Memory.wfFrom_mono {c : Config} {m : Memory} {lo hi : Nat} (h : lo ≤ hi) (w : Memory.wfFrom c hi m = true) :
    Memory.wfFrom c lo m = true := by
  cases m with
  | nil => rfl
  | cons p m =>
    obtain ⟨b, x⟩ := p
    simp only [Memory.wfFrom, Bool.and_eq_true, decide_eq_true_eq] at w ⊢
    exact ⟨⟨⟨by omega, w.1.1.2⟩, w.1.2⟩, w.2⟩

theorem Memory.lookup_below {c : Config} {m : Memory} {lo a : Nat} (w : Memory.wfFrom c lo m = true) (h : a < lo) :
    Memory.lookup m a = none := by
  induction m generalizing lo with
  | nil => rfl
  | cons p m ih =>
    obtain ⟨b, x⟩ := p
    simp only [Memory.wfFrom, Bool.and_eq_true, decide_eq_true_eq] at w
    have hb : a ≠ b := by omega
    simp only [Memory.lookup, hb, if_false]
    exact ih w.2 (by omega)

theorem Memory.lookup_store_ne (m : Memory) {a b : Nat} (x dflt : Byte) (h : b ≠ a) :
    Memory.lookup (Memory.store m a x dflt) b = Memory.lookup m b := by
  induction m with
  | nil => by_cases hx : x = dflt <;> simp [Memory.store, Memory.lookup, hx, h]
  | cons p m ih =>
    obtain ⟨k, w⟩ := p
    simp only [Memory.store]
    split
    · split <;> simp [Memory.lookup, h]
    · split
      · next hak => subst hak; split <;> simp [Memory.lookup, h]
      · simp [Memory.lookup, ih]

theorem Memory.lookup_store_self {c : Config} {m : Memory} {lo : Nat} (a : Nat) (x dflt : Byte)
    (w : Memory.wfFrom c lo m = true) : (Memory.lookup (Memory.store m a x dflt) a).getD dflt = x := by
  induction m generalizing lo with
  | nil => by_cases hx : x = dflt <;> simp [Memory.store, Memory.lookup, hx]
  | cons p m ih =>
    obtain ⟨k, v⟩ := p
    simp only [Memory.wfFrom, Bool.and_eq_true, decide_eq_true_eq] at w
    simp only [Memory.store]
    split
    · next hlt =>
      split
      · next hx =>
        have hk : a ≠ k := by omega
        simp [Memory.lookup, hk, Memory.lookup_below w.2 (show a < k + 1 by omega), hx]
      · simp [Memory.lookup]
    · split
      · next hak =>
        subst hak
        split
        · next hx => simp [Memory.lookup_below w.2 (Nat.lt_succ_self a), hx]
        · simp [Memory.lookup]
      · next hak => simp [Memory.lookup, hak, ih w.2]

theorem Memory.wfFrom_store {c : Config} {m : Memory} {lo a : Nat} (x : Byte) (ha : a < 4096) (hlo : lo ≤ a)
    (w : Memory.wfFrom c lo m = true) : Memory.wfFrom c lo (Memory.store m a x (resetByte c a)) = true := by
  induction m generalizing lo with
  | nil => by_cases hx : x = resetByte c a <;> simp [Memory.store, Memory.wfFrom, hx, ha, hlo]
  | cons p m ih =>
    obtain ⟨k, v⟩ := p
    have w' := w
    simp only [Memory.wfFrom, Bool.and_eq_true, decide_eq_true_eq] at w'
    simp only [Memory.store]
    split
    · next hlt =>
      split
      · exact w
      · next hx =>
        simp only [Memory.wfFrom, Bool.and_eq_true, decide_eq_true_eq]
        exact ⟨⟨⟨hlo, ha⟩, hx⟩, ⟨⟨⟨by omega, w'.1.1.2⟩, w'.1.2⟩, w'.2⟩⟩
    · split
      · next hak =>
        subst hak
        split
        · exact Memory.wfFrom_mono (by omega) w'.2
        · next hx =>
          simp only [Memory.wfFrom, Bool.and_eq_true, decide_eq_true_eq]
          exact ⟨⟨⟨hlo, ha⟩, hx⟩, w'.2⟩
      · next hak =>
        simp only [Memory.wfFrom, Bool.and_eq_true, decide_eq_true_eq]
        exact ⟨w'.1, ih (by omega) w'.2⟩

/-! ## The state -/

theorem memAddr_lt (base : Word) (i : Nat) : memAddr base i < 4096 := Nat.mod_lt _ (by omega)

theorem memAddr_inj {base : Word} {i j : Nat} (hi : i < 4096) (hj : j < 4096) (h : memAddr base i = memAddr base j) :
    i = j := by
  unfold memAddr at h
  omega

@[simp] theorem setByteAt_byteAt_ne (s : State) {a b : Nat} (x : Byte) (h : b ≠ a) :
    (s.setByteAt a x).byteAt b = s.byteAt b := by
  simp [State.byteAt, State.setByteAt, Memory.lookup_store_ne _ _ _ h]

theorem setByteAt_byteAt_self {s : State} (w : Memory.wf s.config s.mem = true) (a : Nat) (x : Byte) :
    (s.setByteAt a x).byteAt a = x := Memory.lookup_store_self a x (resetByte s.config a) w

theorem setByteAt_wf {s : State} (w : Memory.wf s.config s.mem = true) {a : Nat} (ha : a < 4096) (x : Byte) :
    Memory.wf (s.setByteAt a x).config (s.setByteAt a x).mem = true := Memory.wfFrom_store x ha (Nat.zero_le a) w

/-! ## Runs of bytes -/

/-- A run of writes changes nothing but memory. -/
theorem memWriteAll_eq (s : State) (base : Word) (i : Nat) (xs : List Byte) :
    s.memWriteAll base i xs = { s with mem := (s.memWriteAll base i xs).mem } := by
  induction xs generalizing s i with
  | nil => rfl
  | cons x xs ih => rw [State.memWriteAll, ih]; rfl

theorem memWriteAll_config (s : State) (base : Word) (i : Nat) (xs : List Byte) :
    (s.memWriteAll base i xs).config = s.config := by rw [memWriteAll_eq]

/-- Writes keep the canonical form. -/
theorem memWriteAll_wf {s : State} (w : Memory.wf s.config s.mem = true) (base : Word) (i : Nat) (xs : List Byte) :
    Memory.wf (s.memWriteAll base i xs).config (s.memWriteAll base i xs).mem = true := by
  induction xs generalizing s i with
  | nil => exact w
  | cons x xs ih => exact ih (s := s.memWrite base i x) (setByteAt_wf w (memAddr_lt base i) x) (i + 1)

/-- An address that no write of the run goes to keeps its byte. -/
theorem memWriteAll_byteAt_ne (s : State) (base : Word) (i : Nat) (xs : List Byte) (a : Nat)
    (h : ∀ j < xs.length, a ≠ memAddr base (i + j)) : (s.memWriteAll base i xs).byteAt a = s.byteAt a := by
  induction xs generalizing s i with
  | nil => rfl
  | cons x xs ih =>
    rw [State.memWriteAll, ih]
    · exact setByteAt_byteAt_ne s x (h 0 (by simp))
    · intro j hj
      have := h (j + 1) (by simpa using hj)
      rwa [show i + (j + 1) = i + 1 + j by omega] at this

/-- Each byte of a run is read back at its own address. -/
theorem memWriteAll_byteAt {s : State} (w : Memory.wf s.config s.mem = true) (base : Word) (i : Nat) (xs : List Byte)
    (j : Nat) (hj : j < xs.length) (hmax : i + xs.length ≤ 4096) :
    (s.memWriteAll base i xs).byteAt (memAddr base (i + j)) = xs[j] := by
  induction xs generalizing s i j with
  | nil => simp at hj
  | cons x xs ih =>
    simp only [List.length_cons] at hmax hj
    have w' := setByteAt_wf w (memAddr_lt base i) x
    cases j with
    | zero =>
      rw [State.memWriteAll, memWriteAll_byteAt_ne]
      · exact setByteAt_byteAt_self w _ x
      · intro k hk he
        have := memAddr_inj (by omega) (by omega) he
        omega
    | succ j =>
      have := ih (s := s.memWrite base i x) w' (i + 1) j (by omega) (by omega)
      rw [State.memWriteAll, show i + (j + 1) = i + 1 + j by omega]
      simpa using this

end Sys2Proof.Machine
end

