-- ==== Sys2Proof/Laws/Ops.lean ====
section
/-! SUPPORT. For each shared operation, what it can do, said once. -/

namespace Sys2Proof.Machine

/-! ## Addresses and operands -/

@[simp] theorem addrAdd_toNat (a : Word) (k : Nat) : (addrAdd a k).toNat = (a.toNat + k) % 4096 := by
  simp only [addrAdd, BitVec.toNat_ofNat]
  omega

@[simp] theorem addrBack2_toNat (a : Word) : (addrBack2 a).toNat = (a.toNat + 4094) % 4096 := by
  simp only [addrBack2, BitVec.toNat_ofNat]
  omega

/-- The rewind undoes the advance, for a `pc` within memory. -/
theorem addrBack2_addrAdd {a : Word} (h : a.toNat < 4096) : addrBack2 (addrAdd a 2) = a := by
  apply BitVec.eq_of_toNat_eq
  rw [addrBack2_toNat, addrAdd_toNat]
  omega

@[simp] theorem zext16_toNat (nnn : Imm12) : (zext16 nnn).toNat = nnn.toNat := by
  have := nnn.isLt
  simp only [zext16, BitVec.toNat_setWidth]
  omega

theorem zext16_lt (nnn : Imm12) : (zext16 nnn).toNat < 4096 := by
  rw [zext16_toNat]
  exact nnn.isLt

theorem glyphAddr_lt (c : Config) (b : Byte) : (glyphAddr c b).toNat < 4096 := by
  simp only [glyphAddr, BitVec.toNat_ofNat]
  omega

theorem flagByte_toNat (b : Bool) : (flagByte b).toNat = if b then 1 else 0 := by cases b <;> rfl

/-! ## Skips -/

theorem skipIf_cases (s : State) (c : Bool) :
    (c = true ∧ s.skipIf c = s.setPc (addrAdd s.pc 2)) ∨ (c = false ∧ s.skipIf c = s) := by
  cases c <;> simp [State.skipIf]

/-- A skip touches nothing but `pc`. -/
theorem skipIf_eq (s : State) (c : Bool) : s.skipIf c = { s with pc := if c then addrAdd s.pc 2 else s.pc } := by
  cases c <;> rfl

/-! ## Stack -/

/-- A push that succeeds writes the slot at `sp` and advances `sp`. -/
theorem push_cases {s t : State} {a : Word} (h : s.push a = some t) :
    ∃ hsp : s.sp.val < 16, t = { s with stack := s.stack.set s.sp.val a, sp := ⟨s.sp.val + 1, by omega⟩ } := by
  unfold State.push at h
  split at h
  · next hsp => exact ⟨hsp, (Option.some.inj h).symm⟩
  · cases h

/-- A push fails exactly on a full stack. -/
theorem push_eq_none (s : State) (a : Word) : s.push a = none ↔ s.sp.val = 16 := by
  have := s.sp.isLt
  unfold State.push
  split <;> simp <;> omega

/-- A pop that succeeds answers the slot below `sp` and moves `sp` down. -/
theorem pop_cases {s t : State} {a : Word} (h : s.pop = some (a, t)) :
    ∃ hsp : 0 < s.sp.val, a = s.stack[s.sp.val - 1]'(by have := s.sp.isLt; omega) ∧
      t = { s with sp := ⟨s.sp.val - 1, by have := s.sp.isLt; omega⟩ } := by
  unfold State.pop at h
  split at h
  · next hsp =>
    have := Option.some.inj h
    exact ⟨hsp, (congrArg Prod.fst this).symm, (congrArg Prod.snd this).symm⟩
  · cases h

/-- A pop fails exactly on an empty stack. -/
theorem pop_eq_none (s : State) : s.pop = none ↔ s.sp.val = 0 := by
  unfold State.pop
  split <;> simp <;> omega

/-! ## Result and flag -/

/-- With another destination than `VF` the two writes do not meet. -/
theorem setResultFlag_reg (s : State) (x r : RegNo) (result flag : Byte) :
    (s.setResultFlag x result flag).reg r = if r = regF then flag else if x = r then result else s.reg r := by
  simp only [State.setResultFlag, setReg_reg, eq_comm (a := regF)]

/-- The two writes under `VF_DEST_POLICY`: always result then flag, but for the one case the policy leaves open. -/
theorem setResultFlagByPolicy_cases (s : State) (x : RegNo) (result flag : Byte) :
    s.setResultFlagByPolicy x result flag = s.setResultFlag x result flag ∨
      (s.config.vfDestPolicy = .unsettled ∧ x = regF ∧
        (s.setResultFlagByPolicy x result flag = s.freeChoice.2.setReg regF flag ∨
          s.setResultFlagByPolicy x result flag = s.freeChoice.2.setReg regF result)) := by
  unfold State.setResultFlagByPolicy
  split
  · exact .inl rfl
  · next hp =>
    split
    · next hx =>
      refine .inr ⟨hp, hx, ?_⟩
      split
      · exact .inl rfl
      · exact .inr rfl
    · exact .inl rfl

theorem setResultFlagByPolicy_of_ne (s : State) {x : RegNo} (h : x ≠ regF) (result flag : Byte) :
    s.setResultFlagByPolicy x result flag = s.setResultFlag x result flag := by
  rcases setResultFlagByPolicy_cases s x result flag with e | ⟨_, hx, _⟩
  · exact e
  · exact absurd hx h

theorem setResultFlagByPolicy_of_flagWins {s : State} (h : s.config.vfDestPolicy = .flagWins) (x : RegNo)
    (result flag : Byte) : s.setResultFlagByPolicy x result flag = s.setResultFlag x result flag := by
  simp [State.setResultFlagByPolicy, h]

/-- Whatever the policy, only general registers and the count of free choices change. -/
theorem setResultFlagByPolicy_eq (s : State) (x : RegNo) (result flag : Byte) :
    s.setResultFlagByPolicy x result flag =
      { s with v := (s.setResultFlagByPolicy x result flag).v,
               freeDraws := (s.setResultFlagByPolicy x result flag).freeDraws } := by
  rcases setResultFlagByPolicy_cases s x result flag with e | ⟨_, _, e | e⟩ <;> rw [e] <;> rfl

/-! ## Register blocks -/

/-- A block load changes nothing but general registers. -/
theorem loadEach_eq (s : State) (base : Word) (rs : List RegNo) :
    s.loadEach base rs = { s with v := (s.loadEach base rs).v } := by
  induction rs generalizing s with
  | nil => rfl
  | cons r rs ih => rw [State.loadEach, ih]; rfl

/-- Every register of the list holds its own byte of memory, the others keep their values. -/
theorem loadEach_reg (s : State) (base : Word) (rs : List RegNo) (r : RegNo) :
    (s.loadEach base rs).reg r = if r ∈ rs then s.memRead base r.val else s.reg r := by
  induction rs generalizing s with
  | nil => rfl
  | cons q rs ih =>
    rw [State.loadEach, ih]
    by_cases hq : q = r
    · subst hq; simp
    · by_cases hr : r ∈ rs <;> simp [hr, hq, Ne.symm hq]

theorem mem_regsUpTo (x r : RegNo) : r ∈ regsUpTo x ↔ r ≤ x := by
  revert x r
  decide

theorem regsUpTo_length (x : RegNo) : (regsUpTo x).length = x.val + 1 := by
  revert x
  decide

theorem regsUpTo_getElem (x : RegNo) (j : Nat) (h : j < (regsUpTo x).length) : ((regsUpTo x)[j]).val = j := by
  have hx : ∀ x : RegNo, ∀ j : Fin 16, (hj : j.val < (regsUpTo x).length) → ((regsUpTo x)[j.val]).val = j.val := by decide
  have := regsUpTo_length x
  exact hx x ⟨j, by omega⟩ h

theorem bumpIndex_eq (s : State) (x : RegNo) :
    s.bumpIndex x = { s with index := if s.config.loadStoreIncI then addrAdd s.index (x.val + 1) else s.index } := by
  unfold State.bumpIndex
  split <;> rfl

/-! ## Admission -/

theorem ifAdmitted_cases {s t u : State} (h : ifAdmitted s t = .next u) : s.config.admitUnlisted4 = true ∧ u = t := by
  unfold ifAdmitted at h
  split at h
  · next ha => exact ⟨ha, by cases h; rfl⟩
  · cases h

/-! ## Keys -/

theorem mem_pressedKeys (s : State) (k : KeyNo) : k ∈ s.pressedKeys ↔ s.keyDown k = true := by
  have : k ∈ allKeys := by revert k; decide
  simp [State.pressedKeys, this]

/-- The head of the pressed keys is the smallest of them. -/
theorem pressedKeys_head_le {s : State} {k : KeyNo} {ks : List KeyNo} (h : s.pressedKeys = k :: ks) (j : KeyNo)
    (hj : s.keyDown j = true) : k ≤ j := by
  have hs : s.pressedKeys.Pairwise (· ≤ ·) := List.Pairwise.filter _ (by decide)
  rw [h, List.pairwise_cons] at hs
  have hm := (mem_pressedKeys s j).mpr hj
  rw [h, List.mem_cons] at hm
  rcases hm with rfl | hm
  · exact le_refl _
  · exact hs.1 j hm

/-- The reported key is a pressed one, and only the register and the count of free choices change. -/
theorem reportKey_cases {s : State} (x : RegNo) {k : KeyNo} {ks : List KeyNo} (h : s.pressedKeys = k :: ks) :
    (s.config.keywaitMode = .levelLowest ∧ s.reportKey x k ks = s.setReg x (BitVec.ofNat 8 k.val)) ∨
      (s.config.keywaitMode = .levelAny ∧ ∃ j : KeyNo, s.keyDown j = true ∧
        s.reportKey x k ks = s.freeChoice.2.setReg x (BitVec.ofNat 8 j.val)) := by
  cases hm : s.config.keywaitMode with
  | levelLowest => exact .inl ⟨rfl, by simp [State.reportKey, hm]⟩
  | levelAny =>
    refine .inr ⟨rfl, (k :: ks).getD (s.freeChoice.1 % (ks.length + 1)) k, ?_, by simp [State.reportKey, hm]⟩
    rw [← mem_pressedKeys, h]
    have hlt : s.freeChoice.1 % (ks.length + 1) < (k :: ks).length := Nat.mod_lt _ (by omega)
    rw [List.getD_eq_getElem _ _ hlt]
    exact List.getElem_mem hlt

/-! ## Drawing -/

theorem pixel_toggle (d : Video) (px qx : Fin 64) (py qy : Fin 32) :
    Video.pixel (Video.toggle d px py) qx qy =
      if px = qx ∧ py = qy then !(Video.pixel d qx qy) else Video.pixel d qx qy := by
  by_cases hy : py = qy
  · subst hy
    by_cases hx : px = qx
    · subst hx; simp [Video.pixel, Video.toggle]
    · simp [Video.pixel, Video.toggle, hx, Fin.val_ne_of_ne hx]
  · simp [Video.pixel, Video.toggle, hy, Fin.val_ne_of_ne hy]

@[simp] theorem pixel_dark (px : Fin 64) (py : Fin 32) : Video.pixel Video.dark px py = false := by
  simp [Video.pixel, Video.dark]

/-- A framebuffer is its pixels. -/
theorem Video.ext {d e : Video} (h : ∀ px py, Video.pixel d px py = Video.pixel e px py) : d = e := by
  apply Vector.ext
  intro py hy
  apply Vector.ext
  intro px hx
  exact h ⟨px, hx⟩ ⟨py, hy⟩

/-- Drawing distinct pixels inverts exactly those, and hits iff one of them was on. -/
theorem foldl_drawPixel (ps : List (Fin 64 × Fin 32)) (hn : ps.Nodup) (d : Drawing) :
    (∀ px py, Video.pixel (ps.foldl drawPixel d).video px py =
        if (px, py) ∈ ps then !(Video.pixel d.video px py) else Video.pixel d.video px py) ∧
      ((ps.foldl drawPixel d).hit = true ↔ d.hit = true ∨ ∃ p ∈ ps, Video.pixel d.video p.1 p.2 = true) := by
  induction ps generalizing d with
  | nil => simp
  | cons p ps ih =>
    obtain ⟨hp, hn⟩ := List.nodup_cons.mp hn
    obtain ⟨ihv, ihh⟩ := ih hn (drawPixel d p)
    constructor
    · intro px py
      rw [List.foldl_cons, ihv]
      simp only [drawPixel, pixel_toggle, List.mem_cons]
      by_cases he : (px, py) = p
      · subst he; simp [hp]
      · have he' : ¬(p.1 = px ∧ p.2 = py) := fun ⟨a, b⟩ => he (by rw [← a, ← b])
        simp [he, he']
    · rw [List.foldl_cons, ihh]
      simp only [drawPixel, Bool.or_eq_true, List.mem_cons, exists_eq_or_imp, or_assoc]
      refine or_congr_right (or_congr_right (exists_congr fun q => and_congr_right fun hq => ?_))
      have hne : ¬(p.1 = q.1 ∧ p.2 = q.2) := fun ⟨a, b⟩ => hp (by rw [show p = q from Prod.ext a b]; exact hq)
      rw [pixel_toggle, if_neg hne]

theorem mem_spriteTargets (s : State) (vx vy : Byte) (n : Nat) (px : Fin 64) (py : Fin 32) :
    (px, py) ∈ s.spriteTargets vx vy n ↔
      ∃ row < n, ∃ col < 8, spriteBit (s.memRead s.index row) col = true ∧ px = pixelColumn vx col ∧
        py = pixelRow vy row := by
  simp only [State.spriteTargets, rowTargets, List.mem_flatMap, List.mem_range, List.mem_map, List.mem_filter,
    Prod.mk.injEq]
  constructor
  · rintro ⟨row, hr, col, ⟨hc, hb⟩, hx, hy⟩
    exact ⟨row, hr, col, hc, hb, hx.symm, hy.symm⟩
  · rintro ⟨row, hr, col, hc, hb, hx, hy⟩
    exact ⟨row, hr, col, ⟨hc, hb⟩, hx.symm, hy.symm⟩

theorem pixelColumn_inj {vx : Byte} {i j : Nat} (hi : i < 64) (hj : j < 64) (h : pixelColumn vx i = pixelColumn vx j) :
    i = j := by
  simp only [pixelColumn, Fin.mk.injEq] at h
  omega

theorem pixelRow_inj {vy : Byte} {i j : Nat} (hi : i < 32) (hj : j < 32) (h : pixelRow vy i = pixelRow vy j) : i = j := by
  simp only [pixelRow, Fin.mk.injEq] at h
  omega

/-- No pixel is touched twice in one draw (43_display.md R151). -/
theorem spriteTargets_nodup (s : State) (vx vy : Byte) {n : Nat} (hn : n ≤ 32) : (s.spriteTargets vx vy n).Nodup := by
  rw [State.spriteTargets, List.nodup_flatMap]
  constructor
  · intro row _
    apply List.Nodup.map_on
    · intro a ha b hb h
      simp only [List.mem_filter, List.mem_range] at ha hb
      exact pixelColumn_inj (by omega) (by omega) (congrArg Prod.fst h)
    · exact List.Nodup.filter _ List.nodup_range
  · refine List.Pairwise.imp_of_mem ?_ List.nodup_range
    intro a b ha hb hab p hpa hpb
    simp only [List.mem_range] at ha hb
    simp only [rowTargets, List.mem_map] at hpa hpb
    obtain ⟨_, _, rfl⟩ := hpa
    obtain ⟨_, _, h⟩ := hpb
    exact hab (pixelRow_inj (by omega) (by omega) (congrArg Prod.snd h).symm)

/-- The drawing of a sprite, pixel by pixel. -/
theorem drawing_pixel (s : State) (x y : RegNo) (n : Fin 16) (px : Fin 64) (py : Fin 32) :
    Video.pixel (s.drawing x y n).video px py =
      if (px, py) ∈ s.spriteTargets (s.reg x) (s.reg y) n.val then !(Video.pixel s.video px py)
      else Video.pixel s.video px py :=
  (foldl_drawPixel _ (spriteTargets_nodup s _ _ (by omega)) _).1 px py

theorem drawing_hit (s : State) (x y : RegNo) (n : Fin 16) :
    (s.drawing x y n).hit = true ↔
      ∃ p ∈ s.spriteTargets (s.reg x) (s.reg y) n.val, Video.pixel s.video p.1 p.2 = true := by
  have := (foldl_drawPixel _ (spriteTargets_nodup s (s.reg x) (s.reg y) (show n.val ≤ 32 by omega))
    { video := s.video, hit := false }).2
  simpa [State.drawing, drawPixels] using this

end Sys2Proof.Machine
end

