-- ==== Sys2Proof/Laws/Step.lean ====
section
/-! SUPPORT. What a step can do, said once, and the basic laws of frames. -/

namespace Sys2Proof.Machine

theorem nextInstr_eq (s : State) : s.nextInstr = decodeWord s.fetchWord := by
  simp only [State.nextInstr, State.fetchBytes, State.fetchWord, decode_cons_cons]
  cases decodeWord (bigEndian (s.memRead s.pc 0) (s.memRead s.pc 1)) <;> rfl

/-- A step that goes on runs an unfaulted core: it executes the decoded instruction after the fetch, or raises
`UnknownOpcode`. -/
theorem step_cases {s t : State} (h : step s = .next t) :
    s.fault = none ∧ ((∃ i, s.nextInstr = .ok i ∧ exec i s.fetched = .next t) ∨
      (∃ e, s.nextInstr = .error e ∧ t = raise .unknownOpcode s.fetched)) := by
  simp only [step, stepCycle] at h
  split at h
  · cases h
  · next hf =>
    refine ⟨hf, ?_⟩
    simp only [runCycle] at h
    split at h
    · next i hi => exact .inl ⟨i, hi, h⟩
    · next e he => exact .inr ⟨e, he, by cases h; rfl⟩

theorem step_of_ok {s : State} {i : Instr} (hf : s.fault = none) (hi : s.nextInstr = .ok i) :
    step s = exec i s.fetched := by
  simp [step, stepCycle, runCycle, hf, hi]

theorem step_of_error {s : State} {e : DecodeError} (hf : s.fault = none) (he : s.nextInstr = .error e) :
    step s = .next (raise .unknownOpcode s.fetched) := by
  simp [step, stepCycle, runCycle, hf, he]

theorem step_of_fault {s : State} {e : Fault} (hf : s.fault = some e) : step s = .fault e := by
  simp [step, stepCycle, hf]

theorem cycle_of_next {s t : State} (h : step s = .next t) : cycle s = .next (t, cycleOutcome s t) := by
  simp only [step] at h
  simp [cycle, h]

/-! ## Frames -/

theorem UnchangedExcept.refl (ps : List Part) (s : State) : UnchangedExcept ps s s := by
  constructor <;> intros <;> rfl

theorem UnchangedExcept.trans {ps : List Part} {s t u : State} (h : UnchangedExcept ps s t)
    (k : UnchangedExcept ps t u) : UnchangedExcept ps s u where
  reg x hx := (k.reg x hx).trans (h.reg x hx)
  pc hp := (k.pc hp).trans (h.pc hp)
  index hp := (k.index hp).trans (h.index hp)
  sp hp := (k.sp hp).trans (h.sp hp)
  slot j hj := (k.slot j hj).trans (h.slot j hj)
  delayTimer hp := (k.delayTimer hp).trans (h.delayTimer hp)
  soundTimer hp := (k.soundTimer hp).trans (h.soundTimer hp)
  keypad hp := (k.keypad hp).trans (h.keypad hp)
  video hp := (k.video hp).trans (h.video hp)
  opcode hp := (k.opcode hp).trans (h.opcode hp)
  entropy hp := (k.entropy hp).trans (h.entropy hp)
  fault hp := (k.fault hp).trans (h.fault hp)
  config hp := (k.config hp).trans (h.config hp)
  freeDraws hp := (k.freeDraws hp).trans (h.freeDraws hp)
  byte a ha := (k.byte a ha).trans (h.byte a ha)

theorem UnchangedExcept.mono {ps qs : List Part} {s t : State} (h : UnchangedExcept ps s t) (hs : ps ⊆ qs) :
    UnchangedExcept qs s t where
  reg x hx := h.reg x fun k => hx (hs k)
  pc hp := h.pc fun k => hp (hs k)
  index hp := h.index fun k => hp (hs k)
  sp hp := h.sp fun k => hp (hs k)
  slot j hj := h.slot j fun k => hj (hs k)
  delayTimer hp := h.delayTimer fun k => hp (hs k)
  soundTimer hp := h.soundTimer fun k => hp (hs k)
  keypad hp := h.keypad fun k => hp (hs k)
  video hp := h.video fun k => hp (hs k)
  opcode hp := h.opcode fun k => hp (hs k)
  entropy hp := h.entropy fun k => hp (hs k)
  fault hp := h.fault fun k => hp (hs k)
  config hp := h.config fun k => hp (hs k)
  freeDraws hp := h.freeDraws fun k => hp (hs k)
  byte a ha := h.byte a fun k => ha (hs k)

theorem unchanged_setReg (s : State) (x : RegNo) (b : Byte) : UnchangedExcept [.reg x] s (s.setReg x b) := by
  constructor <;> intros <;> try rfl
  next r hr => exact setReg_reg_ne s (fun h => hr (by simp [h])) b

theorem unchanged_setPc (s : State) (a : Word) : UnchangedExcept [.pc] s (s.setPc a) := by
  constructor <;> intros <;> first | rfl | simp_all

theorem unchanged_setIndex (s : State) (a : Word) : UnchangedExcept [.index] s (s.setIndex a) := by
  constructor <;> intros <;> first | rfl | simp_all

theorem unchanged_raise (e : Fault) (s : State) : UnchangedExcept [.fault] s (raise e s) := by
  constructor <;> intros <;> first | rfl | simp_all

theorem unchanged_fetched (s : State) : UnchangedExcept [.pc, .opcode] s s.fetched := by
  constructor <;> intros <;> first | rfl | simp_all

theorem unchanged_skipIf (s : State) (c : Bool) : UnchangedExcept [.pc] s (s.skipIf c) := by
  rw [skipIf_eq]
  constructor <;> intros <;> first | rfl | simp_all

theorem unchanged_setResultFlag (s : State) (x : RegNo) (result flag : Byte) :
    UnchangedExcept [.reg x, .reg regF] s (s.setResultFlag x result flag) := by
  constructor <;> intros <;> try rfl
  next r hr =>
    simp only [List.mem_cons, Part.reg.injEq, List.not_mem_nil, or_false, not_or] at hr
    rw [setResultFlag_reg, if_neg hr.2, if_neg (Ne.symm hr.1)]

theorem unchanged_setVideo (s : State) (d : Video) : UnchangedExcept [.video] s (s.setVideo d) := by
  constructor <;> intros <;> first | rfl | simp_all

theorem unchanged_setDelay (s : State) (b : Byte) : UnchangedExcept [.delayTimer] s (s.setDelay b) := by
  constructor <;> intros <;> first | rfl | simp_all

theorem unchanged_setSound (s : State) (b : Byte) : UnchangedExcept [.soundTimer] s (s.setSound b) := by
  constructor <;> intros <;> first | rfl | simp_all

theorem unchanged_setEntropy (s : State) (e : Entropy) : UnchangedExcept [.entropy] s (s.setEntropy e) := by
  constructor <;> intros <;> first | rfl | simp_all

theorem unchanged_setKey (s : State) (k : KeyNo) (b : Bool) : UnchangedExcept [.keypad] s (s.setKey k b) := by
  constructor <;> intros <;> first | rfl | simp_all

theorem unchanged_freeChoice (s : State) : UnchangedExcept [.freeDraws] s s.freeChoice.2 := by
  constructor <;> intros <;> first | rfl | simp_all

theorem unchanged_setResultFlagByPolicy (s : State) (x : RegNo) (result flag : Byte) :
    UnchangedExcept [.reg x, .reg regF, .freeDraws] s (s.setResultFlagByPolicy x result flag) := by
  have free : ∀ b, UnchangedExcept [.reg x, .reg regF, .freeDraws] s (s.freeChoice.2.setReg regF b) := fun b =>
    ((unchanged_freeChoice s).mono (by simp)).trans ((unchanged_setReg _ regF b).mono (by simp))
  rcases setResultFlagByPolicy_cases s x result flag with e | ⟨_, _, e | e⟩ <;> rw [e]
  · exact (unchanged_setResultFlag s x result flag).mono (by simp)
  · exact free _
  · exact free _

theorem unchanged_bumpIndex (s : State) (x : RegNo) :
    UnchangedExcept (if s.config.loadStoreIncI then [.index] else []) s (s.bumpIndex x) := by
  unfold State.bumpIndex
  split
  · exact unchanged_setIndex _ _
  · exact UnchangedExcept.refl _ _

/-- A push touches only `sp` and the slot it writes. -/
theorem unchanged_push {s t : State} {a : Word} (h : s.push a = some t) :
    ∃ hs : s.sp.val < 16, UnchangedExcept [.sp, .slot ⟨s.sp.val, hs⟩] s t := by
  obtain ⟨hs, rfl⟩ := push_cases h
  refine ⟨hs, ?_⟩
  constructor <;> intros <;> try first | rfl | (simp_all; done)
  next k hk =>
    have : s.sp.val ≠ k.val := fun h => hk (by simp [h])
    simp [this]

/-- A pop touches only `sp`. -/
theorem unchanged_pop {s t : State} {a : Word} (h : s.pop = some (a, t)) : UnchangedExcept [.sp] s t := by
  obtain ⟨_, _, rfl⟩ := pop_cases h
  constructor <;> intros <;> first | rfl | simp_all

/-- A run of writes touches only the bytes it goes to. -/
theorem unchanged_memWriteAll (s : State) (base : Word) (i : Nat) (xs : List Byte) :
    UnchangedExcept ((List.range xs.length).map fun j => .byte (memAddr base (i + j))) s (s.memWriteAll base i xs) := by
  constructor <;> intros <;> try (rw [memWriteAll_eq] <;> rfl)
  next a ha =>
    apply memWriteAll_byteAt_ne
    intro j hj he
    exact ha (List.mem_map.mpr ⟨j, List.mem_range.mpr hj, by rw [he]⟩)

/-- A block load touches only the registers of its list. -/
theorem unchanged_loadEach (s : State) (base : Word) (rs : List RegNo) :
    UnchangedExcept (rs.map Part.reg) s (s.loadEach base rs) := by
  constructor <;> intros <;> try (rw [loadEach_eq] <;> rfl)
  next r hr =>
    rw [loadEach_reg, if_neg]
    exact fun h => hr (List.mem_map.mpr ⟨r, h, rfl⟩)

end Sys2Proof.Machine
end

