-- ==== Sys2Proof/Laws/Exec.lean ====
section
/-! SUPPORT. What an instruction may touch, said once: an upper bound on the parts of the state that each handler
changes. -/

namespace Sys2Proof.Machine

/-- The parts of the state that an instruction may change in a state. -/
def touches (i : Instr) (s : State) : List Part :=
  match i with
  | .cls => [.video]
  | .ret => [.pc, .sp, .fault]
  | .jp _ | .jpV0 _ => [.pc]
  | .call _ => [.pc, .sp, .fault] ++ (if h : s.sp.val < 16 then [.slot ⟨s.sp.val, h⟩] else [])
  | .seKk _ _ | .sneKk _ _ | .seVy _ _ | .sneVy _ _ | .skp _ | .sknp _ => [.pc]
  | .ldKk x _ | .addKk x _ | .ldVy x _ | .orVy x _ | .andVy x _ | .xorVy x _ | .ldVxDt x => [.reg x]
  | .addVy x _ => [.reg x, .reg regF]
  | .subVy x _ | .subnVy x _ | .shr x | .shl x => [.reg x, .reg regF, .freeDraws]
  | .ldI _ | .ldF _ => [.index]
  | .rnd x _ => [.reg x, .entropy]
  | .drw _ _ _ => [.video, .reg regF]
  | .ldVxK x => if s.pressedKeys = [] then [.pc] else [.reg x, .freeDraws]
  | .ldDtVx _ => [.delayTimer]
  | .ldStVx _ => [.soundTimer]
  | .addI _ => if s.config.quirkAddiVF then [.index, .reg regF] else [.index]
  | .ldB _ => [.byte (memAddr s.index 0), .byte (memAddr s.index 1), .byte (memAddr s.index 2)]
  | .storeRegs x =>
    (if s.config.loadStoreIncI then [.index] else []) ++ (regsUpTo x).map fun r => .byte (memAddr s.index r.val)
  | .loadRegs x => (if s.config.loadStoreIncI then [.index] else []) ++ (regsUpTo x).map .reg

/-- The bytes of a run over `V0` .. `Vx`, by offset and by register. -/
theorem map_range_regsUpTo (x : RegNo) (base : Word) :
    ((List.range (regsUpTo x).length).map fun j => Part.byte (memAddr base (0 + j))) =
      (regsUpTo x).map fun r => Part.byte (memAddr base r.val) := by
  apply List.ext_getElem (by simp)
  intro n h1 h2
  simp [regsUpTo_getElem]

/-- Every handler that goes on leaves alone what it does not touch. -/
theorem exec_touches {i : Instr} {s t : State} (h : exec i s = .next t) : UnchangedExcept (touches i s) s t := by
  cases i <;> simp only [exec] at h <;> simp only [touches]
  case cls => cases h; exact unchanged_setVideo _ _
  case ret =>
    unfold execRet at h
    split at h
    · next hp =>
      cases h
      exact ((unchanged_pop hp).mono (by simp)).trans ((unchanged_setPc _ _).mono (by simp))
    · cases h; exact (unchanged_raise _ _).mono (by simp)
  case jp => cases h; exact unchanged_setPc _ _
  case jpV0 => cases h; exact unchanged_setPc _ _
  case call =>
    unfold execCall at h
    split at h
    · next hp =>
      obtain ⟨hs, hu⟩ := unchanged_push hp
      cases h
      rw [dif_pos hs]
      exact (hu.mono (by simp)).trans ((unchanged_setPc _ _).mono (by simp))
    · cases h; exact (unchanged_raise _ _).mono (by simp)
  case seKk => cases h; exact unchanged_skipIf _ _
  case sneKk => cases h; exact unchanged_skipIf _ _
  case seVy => cases h; exact unchanged_skipIf _ _
  case sneVy => cases h; exact unchanged_skipIf _ _
  case skp => cases h; exact unchanged_skipIf _ _
  case sknp => cases h; exact unchanged_skipIf _ _
  case ldKk => cases h; exact unchanged_setReg _ _ _
  case addKk => cases h; exact unchanged_setReg _ _ _
  case ldVy => cases h; exact unchanged_setReg _ _ _
  case orVy => cases h; exact unchanged_setReg _ _ _
  case andVy => cases h; exact unchanged_setReg _ _ _
  case xorVy => cases h; exact unchanged_setReg _ _ _
  case ldVxDt => cases h; exact unchanged_setReg _ _ _
  case addVy => cases h; exact unchanged_setResultFlag _ _ _ _
  case subVy => cases h; exact unchanged_setResultFlagByPolicy _ _ _ _
  case subnVy => cases h; exact unchanged_setResultFlagByPolicy _ _ _ _
  case shr => cases h; exact unchanged_setResultFlagByPolicy _ _ _ _
  case shl => cases h; exact unchanged_setResultFlagByPolicy _ _ _ _
  case ldI => cases h; exact unchanged_setIndex _ _
  case ldF => obtain ⟨_, rfl⟩ := ifAdmitted_cases h; exact unchanged_setIndex _ _
  case rnd =>
    cases h
    exact ((unchanged_setEntropy _ _).mono (by simp)).trans ((unchanged_setReg _ _ _).mono (by simp))
  case drw =>
    cases h
    exact ((unchanged_setVideo _ _).mono (by simp)).trans ((unchanged_setReg _ _ _).mono (by simp))
  case ldVxK x =>
    unfold execLdVxK at h
    split at h
    · next hk =>
      simp only [hk, reduceCtorEq, if_false]
      cases h
      rcases reportKey_cases x hk with ⟨_, e⟩ | ⟨_, j, _, e⟩ <;> rw [e]
      · exact (unchanged_setReg _ _ _).mono (by simp)
      · exact ((unchanged_freeChoice _).mono (by simp)).trans ((unchanged_setReg _ _ _).mono (by simp))
    · next hk =>
      rw [if_pos hk]
      cases h
      exact unchanged_setPc _ _
  case ldDtVx => cases h; exact unchanged_setDelay _ _
  case ldStVx => cases h; exact unchanged_setSound _ _
  case addI =>
    cases h
    split
    · next hq =>
      exact ((unchanged_setIndex _ _).mono (by simp)).trans ((unchanged_setReg _ _ _).mono (by simp))
    · exact unchanged_setIndex _ _
  case ldB =>
    obtain ⟨_, rfl⟩ := ifAdmitted_cases h
    refine (unchanged_memWriteAll s s.index 0 _).mono fun p hp => ?_
    simp only [decimalDigits, List.length_cons, List.length_nil, List.mem_map, List.mem_range] at hp
    obtain ⟨j, hj, rfl⟩ := hp
    interval_cases j <;> simp
  case storeRegs x =>
    obtain ⟨_, rfl⟩ := ifAdmitted_cases h
    have h1 := unchanged_memWriteAll s s.index 0 ((regsUpTo x).map s.reg)
    rw [List.length_map, map_range_regsUpTo] at h1
    have h2 := unchanged_bumpIndex (s.memWriteAll s.index 0 ((regsUpTo x).map s.reg)) x
    rw [memWriteAll_config] at h2
    exact (h1.mono (List.subset_append_right _ _)).trans (h2.mono (List.subset_append_left _ _))
  case loadRegs x =>
    obtain ⟨_, rfl⟩ := ifAdmitted_cases h
    have h1 := unchanged_loadEach s s.index (regsUpTo x)
    have h2 := unchanged_bumpIndex (s.loadEach s.index (regsUpTo x)) x
    rw [show (s.loadEach s.index (regsUpTo x)).config = s.config by rw [loadEach_eq]] at h2
    exact (h1.mono (List.subset_append_right _ _)).trans (h2.mono (List.subset_append_left _ _))

/-- With `ADMIT_UNLISTED4` on every handler answers a next state. -/
theorem exec_goes_on (i : Instr) {s : State} (h : s.config.admitUnlisted4 = true) : ∃ t, exec i s = .next t := by
  cases i <;> simp only [exec, execCls, execRet, execJp, execCall, execSeKk, execSneKk, execSeVy, execSneVy, execLdKk,
    execAddKk, execLdVy, execOrVy, execAndVy, execXorVy, execAddVy, execSubVy, execShr, execSubnVy, execShl, execLdI,
    execJpV0, execRnd, execDrw, execSkp, execSknp, execLdVxDt, execLdVxK, execLdDtVx, execLdStVx, execAddI, execLdF,
    execLdB, execStoreRegs, execLoadRegs, ifAdmitted, h, if_true] <;> (try split) <;> exact ⟨_, rfl⟩

end Sys2Proof.Machine
end

