-- ==== Sys2Proof/Laws/PerInstr.lean ====
section
/-! SUPPORT. A statement made for each instruction: its encoded word matches its row of the opcode map, and the row is
in the map (30_encoding.md R86). -/

namespace Sys2Proof

/-! ## What a mask leaves of an encoded word -/

theorem encodeA_mask (f : BitVec 4) (nnn : Imm12) : encodeA f nnn &&& 0xF000 = f ++ (0 : BitVec 12) := by
  apply BitVec.eq_of_getLsbD_eq
  intro i hi
  rw [encodeA, BitVec.getLsbD_and, BitVec.getLsbD_append, BitVec.getLsbD_append]
  interval_cases i <;> simp

theorem encodeXK_mask (f : BitVec 4) (x : RegNo) (k : Byte) : encodeXK f x k &&& 0xF000 = f ++ (0 : BitVec 12) := by
  apply BitVec.eq_of_getLsbD_eq
  intro i hi
  rw [encodeXK, BitVec.getLsbD_and, BitVec.getLsbD_append, BitVec.getLsbD_append, BitVec.getLsbD_append]
  interval_cases i <;> simp

theorem encodeXK_mask_low (f : BitVec 4) (x : RegNo) (k : Byte) :
    encodeXK f x k &&& 0xF0FF = f ++ (0 : BitVec 4) ++ k := by
  apply BitVec.eq_of_getLsbD_eq
  intro i hi
  rw [encodeXK, BitVec.getLsbD_and]
  simp only [BitVec.getLsbD_append]
  interval_cases i <;> simp

theorem encodeXYN_mask (f : BitVec 4) (x y : RegNo) (n : BitVec 4) :
    encodeXYN f x y n &&& 0xF000 = f ++ (0 : BitVec 12) := by
  apply BitVec.eq_of_getLsbD_eq
  intro i hi
  rw [encodeXYN, BitVec.getLsbD_and]
  simp only [BitVec.getLsbD_append]
  interval_cases i <;> simp

theorem encodeXYN_mask_low (f : BitVec 4) (x y : RegNo) (n : BitVec 4) :
    encodeXYN f x y n &&& 0xF00F = f ++ (0 : BitVec 8) ++ n := by
  apply BitVec.eq_of_getLsbD_eq
  intro i hi
  rw [encodeXYN, BitVec.getLsbD_and]
  simp only [BitVec.getLsbD_append]
  interval_cases i <;> simp

end Sys2Proof

namespace Sys2Proof.Laws.EncodesInRow

/-- The encoded word selects the instruction's own row, which stands in the table. -/
def Statement (i : Instr) : Prop := encode i &&& i.row.mask = i.row.pattern ∧ i.row ∈ opcodeTable

theorem cls : Statement .cls := ⟨by decide, by decide⟩
theorem ret : Statement .ret := ⟨by decide, by decide⟩
theorem jp (nnn : Imm12) : Statement (.jp nnn) := ⟨encodeA_mask _ _, by simp [Instr.row, opcodeTable]⟩
theorem call (nnn : Imm12) : Statement (.call nnn) := ⟨encodeA_mask _ _, by simp [Instr.row, opcodeTable]⟩
theorem seKk (x : RegNo) (kk : Byte) : Statement (.seKk x kk) := ⟨encodeXK_mask _ _ _, by simp [Instr.row, opcodeTable]⟩
theorem sneKk (x : RegNo) (kk : Byte) : Statement (.sneKk x kk) := ⟨encodeXK_mask _ _ _, by simp [Instr.row, opcodeTable]⟩
theorem seVy (x : RegNo) (y : RegNo) : Statement (.seVy x y) := ⟨encodeXYN_mask _ _ _ _, by simp [Instr.row, opcodeTable]⟩
theorem ldKk (x : RegNo) (kk : Byte) : Statement (.ldKk x kk) := ⟨encodeXK_mask _ _ _, by simp [Instr.row, opcodeTable]⟩
theorem addKk (x : RegNo) (kk : Byte) : Statement (.addKk x kk) := ⟨encodeXK_mask _ _ _, by simp [Instr.row, opcodeTable]⟩
theorem ldVy (x : RegNo) (y : RegNo) : Statement (.ldVy x y) := ⟨encodeXYN_mask_low _ _ _ _, by simp [Instr.row, opcodeTable]⟩
theorem orVy (x : RegNo) (y : RegNo) : Statement (.orVy x y) := ⟨encodeXYN_mask_low _ _ _ _, by simp [Instr.row, opcodeTable]⟩
theorem andVy (x : RegNo) (y : RegNo) : Statement (.andVy x y) := ⟨encodeXYN_mask_low _ _ _ _, by simp [Instr.row, opcodeTable]⟩
theorem xorVy (x : RegNo) (y : RegNo) : Statement (.xorVy x y) := ⟨encodeXYN_mask_low _ _ _ _, by simp [Instr.row, opcodeTable]⟩
theorem addVy (x : RegNo) (y : RegNo) : Statement (.addVy x y) := ⟨encodeXYN_mask_low _ _ _ _, by simp [Instr.row, opcodeTable]⟩
theorem subVy (x : RegNo) (y : RegNo) : Statement (.subVy x y) := ⟨encodeXYN_mask_low _ _ _ _, by simp [Instr.row, opcodeTable]⟩
theorem shr (x : RegNo) : Statement (.shr x) := ⟨encodeXYN_mask_low _ _ _ _, by simp [Instr.row, opcodeTable]⟩
theorem subnVy (x : RegNo) (y : RegNo) : Statement (.subnVy x y) := ⟨encodeXYN_mask_low _ _ _ _, by simp [Instr.row, opcodeTable]⟩
theorem shl (x : RegNo) : Statement (.shl x) := ⟨encodeXYN_mask_low _ _ _ _, by simp [Instr.row, opcodeTable]⟩
theorem sneVy (x : RegNo) (y : RegNo) : Statement (.sneVy x y) := ⟨encodeXYN_mask _ _ _ _, by simp [Instr.row, opcodeTable]⟩
theorem ldI (nnn : Imm12) : Statement (.ldI nnn) := ⟨encodeA_mask _ _, by simp [Instr.row, opcodeTable]⟩
theorem jpV0 (nnn : Imm12) : Statement (.jpV0 nnn) := ⟨encodeA_mask _ _, by simp [Instr.row, opcodeTable]⟩
theorem rnd (x : RegNo) (kk : Byte) : Statement (.rnd x kk) := ⟨encodeXK_mask _ _ _, by simp [Instr.row, opcodeTable]⟩
theorem drw (x : RegNo) (y : RegNo) (n : Fin 16) : Statement (.drw x y n) := ⟨encodeXYN_mask _ _ _ _, by simp [Instr.row, opcodeTable]⟩
theorem skp (x : RegNo) : Statement (.skp x) := ⟨encodeXK_mask_low _ _ _, by simp [Instr.row, opcodeTable]⟩
theorem sknp (x : RegNo) : Statement (.sknp x) := ⟨encodeXK_mask_low _ _ _, by simp [Instr.row, opcodeTable]⟩
theorem ldVxDt (x : RegNo) : Statement (.ldVxDt x) := ⟨encodeXK_mask_low _ _ _, by simp [Instr.row, opcodeTable]⟩
theorem ldVxK (x : RegNo) : Statement (.ldVxK x) := ⟨encodeXK_mask_low _ _ _, by simp [Instr.row, opcodeTable]⟩
theorem ldDtVx (x : RegNo) : Statement (.ldDtVx x) := ⟨encodeXK_mask_low _ _ _, by simp [Instr.row, opcodeTable]⟩
theorem ldStVx (x : RegNo) : Statement (.ldStVx x) := ⟨encodeXK_mask_low _ _ _, by simp [Instr.row, opcodeTable]⟩
theorem addI (x : RegNo) : Statement (.addI x) := ⟨encodeXK_mask_low _ _ _, by simp [Instr.row, opcodeTable]⟩
theorem ldF (x : RegNo) : Statement (.ldF x) := ⟨encodeXK_mask_low _ _ _, by simp [Instr.row, opcodeTable]⟩
theorem ldB (x : RegNo) : Statement (.ldB x) := ⟨encodeXK_mask_low _ _ _, by simp [Instr.row, opcodeTable]⟩
theorem storeRegs (x : RegNo) : Statement (.storeRegs x) := ⟨encodeXK_mask_low _ _ _, by simp [Instr.row, opcodeTable]⟩
theorem loadRegs (x : RegNo) : Statement (.loadRegs x) := ⟨encodeXK_mask_low _ _ _, by simp [Instr.row, opcodeTable]⟩

end Sys2Proof.Laws.EncodesInRow
end

