-- ==== Sys2Proof/Tests/Slice0.lean ====
section
/-! SUPPORT. Tests on single steps, and a witness for the hypotheses of each statement. Expected results are those of
spec/95_test_vectors.md, named by table and row (S is part 1 of that file), or the rule named. -/

namespace Sys2Proof.Tests

open Sys2Proof Sys2Proof.Machine

/-! ## Helpers -/

/-- The defaults of the configuration, `QUIRK_ADDI_VF` off. -/
def cfg : Config := Config.defaults false

/-- The state after a reset with a configuration, no supplied entropy. -/
def freshWith (c : Config) : State := State.resetWith 0 [] c

/-- The state after a reset with the defaults. -/
def fresh : State := freshWith cfg

/-- Two registers set on a fresh state. -/
def regs (x : RegNo) (a : Byte) (y : RegNo) (b : Byte) : State := (fresh.setReg x a).setReg y b

/-- One cycle on a word placed at `pc` goes on, and the state it leaves passes a check. -/
def run (w : Nat) (s : State) (check : State → Bool) : Bool :=
  match step (s.withFetchWord 16 w) with
  | .next t => check t
  | .fault _ => false
  | .refused _ => false

/-- The outcome of a cycle on a word placed at `pc`. -/
def outcomeOf (w : Nat) (s : State) : Option CycleOutcome :=
  match cycle (s.withFetchWord 16 w) with
  | .next (_, o) => some o
  | .fault _ => none
  | .refused _ => none

/-- Bytes placed in memory from an address on. -/
def bytesAt (s : State) (a : Word) (xs : List Byte) : State := s.memWriteAll a 0 xs

/-- A stack with one slot set and a stack pointer. -/
def stackAt (sp : Fin 17) (k : Fin 16) (a : Word) : State := { fresh with stack := fresh.stack.set k a, sp := sp }

/-- The columns of the pixels that are on in a row. -/
def rowOn (s : State) (py : Fin 32) : List Nat :=
  ((List.finRange 64).filter fun px => Video.pixel s.video px py).map Fin.val

/-! ## WellFormed: what is ill-formed is refused -/

theorem test_config_fontBase_in_reserved_region : ({ cfg with fontBase := 0x1B0 } : Config).wellFormed = true := by decide
theorem test_config_fontBase_too_high_refused : ({ cfg with fontBase := 0x1B1 } : Config).wellFormed = false := by decide
theorem test_rom_of_3584_bytes_fits : romFits (List.replicate 3584 0) = true := by
  rw [romFits, List.length_replicate]; rfl
theorem test_rom_of_3585_bytes_refused : romFits (List.replicate 3585 0) = false := by
  rw [romFits, List.length_replicate]; rfl
theorem test_move_reset_checks_its_configuration :
    (Move.reset 0 [] { cfg with fontBase := 0x1B1 }).wellFormed = false ∧ (Move.reset 0 [] cfg).wellFormed = true := by
  decide

/-! ## Decode: words written out from the encodings of 30_encoding.md R86 -/

theorem test_decode_family0 : decodeWord 0x00E0 = .ok .cls ∧ decodeWord 0x00EE = .ok .ret := by decide
theorem test_decode_jumps :
    decodeWord 0x1200 = .ok (.jp 0x200) ∧ decodeWord 0x2206 = .ok (.call 0x206) ∧
    decodeWord 0xBFFF = .ok (.jpV0 0xFFF) := by decide
theorem test_decode_skips :
    decodeWord 0x332A = .ok (.seKk 3 0x2A) ∧ decodeWord 0x4F00 = .ok (.sneKk 15 0) ∧
    decodeWord 0x5120 = .ok (.seVy 1 2) ∧ decodeWord 0x9AB0 = .ok (.sneVy 10 11) := by decide
theorem test_decode_immediates :
    decodeWord 0x600A = .ok (.ldKk 0 0x0A) ∧ decodeWord 0x7FFF = .ok (.addKk 15 0xFF) ∧
    decodeWord 0xA20C = .ok (.ldI 0x20C) ∧ decodeWord 0xC30F = .ok (.rnd 3 0x0F) := by decide
theorem test_decode_family8_moves :
    decodeWord 0x8AB0 = .ok (.ldVy 10 11) ∧ decodeWord 0x8AB1 = .ok (.orVy 10 11) ∧
    decodeWord 0x8AB2 = .ok (.andVy 10 11) ∧ decodeWord 0x8AB3 = .ok (.xorVy 10 11) := by decide
theorem test_decode_family8_flags :
    decodeWord 0x8014 = .ok (.addVy 0 1) ∧ decodeWord 0x8AB5 = .ok (.subVy 10 11) ∧ decodeWord 0x8A06 = .ok (.shr 10) ∧
    decodeWord 0x8AB7 = .ok (.subnVy 10 11) ∧ decodeWord 0x8A0E = .ok (.shl 10) := by decide
theorem test_decode_draw : decodeWord 0xD7A3 = .ok (.drw 7 10 3) := by decide
theorem test_decode_familyE : decodeWord 0xE49E = .ok (.skp 4) ∧ decodeWord 0xE0A1 = .ok (.sknp 0) := by decide
theorem test_decode_familyF_timers :
    decodeWord 0xF307 = .ok (.ldVxDt 3) ∧ decodeWord 0xF50A = .ok (.ldVxK 5) ∧ decodeWord 0xF315 = .ok (.ldDtVx 3) ∧
    decodeWord 0xF318 = .ok (.ldStVx 3) ∧ decodeWord 0xF21E = .ok (.addI 2) := by decide
theorem test_decode_familyF_memory :
    decodeWord 0xF129 = .ok (.ldF 1) ∧ decodeWord 0xF033 = .ok (.ldB 0) ∧ decodeWord 0xF155 = .ok (.storeRegs 1) ∧
    decodeWord 0xFF65 = .ok (.loadRegs 15) := by decide

/-- T-ENC 6 to 8: unexamined bits. -/
theorem test_decode_unexamined_bits :
    decodeWord 0x5121 = .ok (.seVy 1 2) ∧ decodeWord 0x9ABF = .ok (.sneVy 10 11) ∧ decodeWord 0x8AB6 = .ok (.shr 10) := by
  decide

/-- T-ENC 4, 5, 9, 10, 12: unknown opcodes. -/
theorem test_decode_unknown :
    [0x0000, 0x01E0, 0x0FEE, 0x00E1, 0x00FD, 0x0123, 0x8018, 0x8ABF, 0x8009, 0xE19F, 0xE0A0, 0xE000, 0xF000, 0xF175,
      0xF11F, 0xF2FF].all (fun w => decodeTableWord 16 w == none) = true := by decide

/-- The bytes of a word in address order (20_memory.md R56). -/
theorem test_decode_bytes_are_big_endian : decode [0x60, 0x0A, 0x99] = .ok (.ldKk 0 0x0A, [0x99]) := by decide
theorem test_decode_one_byte_is_truncated : decode [0x60] = .error .truncated := by decide

/-! ## The cycle -/

/-- T-ENC 15: big-endian fetch, `opcode` latched. -/
theorem test_fetch_word : (bytesAt fresh 0x200 [0xA2, 0x0C]).fetchWord = 0xA20C := by decide

/-- T-ENC 16: the fetch at 0xFFF takes its second byte from 0x000. -/
theorem test_fetch_wraps : (bytesAt (fresh.setPc 0xFFF) 0xFFF [0x12, 0x00]).fetched.pc = 0x001 ∧
    run 0x1200 (fresh.setPc 0xFFF) (fun t => t.opcode == 0x1200 && t.pc == 0x200) = true := by decide

/-- T-ENC 17, 18: `pc` wraps; an odd `pc` is legal. -/
theorem test_pc_wraps_and_may_be_odd :
    run 0x6A01 (fresh.setPc 0xFFE) (fun t => t.reg 10 == 1 && t.pc == 0x000) = true ∧
    run 0x6B07 (fresh.setPc 0x201) (fun t => t.reg 11 == 7 && t.pc == 0x203) = true := by decide

/-- T-ENC 20: an unknown opcode. -/
theorem test_unknown_opcode : outcomeOf 0x8008 (fresh.setPc 0x300) = some (.fault .unknownOpcode) ∧
    run 0x8008 (fresh.setPc 0x300) (fun t => t.faultCode == 1 && t.pc == 0x302 && t.opcode == 0x8008) = true := by decide

/-- T-FLT 1: a fresh core with no ROM; T-ENC 19, T-FLT 2: a fault is sticky. -/
theorem test_empty_memory_faults :
    run 0 fresh (fun t => t.faultCode == 1 && t.pc == 0x202 && t.opcode == 0) = true ∧
    step (raise .unknownOpcode fresh) = .fault .unknownOpcode := ⟨by decide, rfl⟩

/-! ## Control flow (T-CF) -/

theorem test_ret : run 0x00EE ((stackAt 1 0 0x202).setPc 0x212) (fun t =>
    t.sp == 0 && t.pc == 0x202 && t.stack[0] == 0x202) = true := by decide

/-- S9: with an empty stack. -/
theorem test_ret_underflow : outcomeOf 0x00EE fresh = some (.fault .stackUnderflow) ∧
    run 0x00EE fresh (fun t => t.faultCode == 3 && t.pc == 0x202 && t.sp == 0) = true := by decide
theorem test_jp_odd_target : run 0x1201 fresh (fun t => t.pc == 0x201) = true := by decide

/-- T-CF 12, 13: the last slot; the pushed address wraps. -/
theorem test_call : run 0x2300 (stackAt 15 0 0) (fun t =>
      t.stack[15] == 0x202 && t.sp == 16 && t.pc == 0x300 && t.faultCode == 0) = true ∧
    run 0x2ABC (fresh.setPc 0xFFE) (fun t => t.stack[0] == 0x000 && t.sp == 1 && t.pc == 0xABC) = true := by decide
theorem test_call_overflow : run 0x2300 (stackAt 16 0 0) (fun t =>
    t.faultCode == 2 && t.sp == 16 && t.pc == 0x202 && t.stack == fresh.stack) = true := by decide
theorem test_se_kk : run 0x332A (fresh.setReg 3 0x2A) (fun t => t.pc == 0x204) = true ∧
    run 0x332A (fresh.setReg 3 0x2B) (fun t => t.pc == 0x202) = true := by decide

/-- T-CF 8: a skip wraps. -/
theorem test_skip_wraps : run 0x3000 (fresh.setPc 0xFFC) (fun t => t.pc == 0x000) = true ∧
    run 0x3000 (fresh.setPc 0xFFE) (fun t => t.pc == 0x002) = true := by decide
theorem test_sne_kk : run 0x432A (fresh.setReg 3 0x2A) (fun t => t.pc == 0x202) = true ∧
    run 0x432A fresh (fun t => t.pc == 0x204) = true := by decide
theorem test_se_vy : run 0x5120 (regs 1 7 2 7) (fun t => t.pc == 0x204) = true ∧
    run 0x5120 (regs 1 7 2 8) (fun t => t.pc == 0x202) = true := by decide
theorem test_sne_vy : run 0x9120 (regs 1 7 2 8) (fun t => t.pc == 0x204) = true ∧
    run 0x9120 (regs 1 7 2 7) (fun t => t.pc == 0x202) = true := by decide

/-- T-CF 16, 17: the sum wraps; the offset is `V0`, never `V3`. -/
theorem test_jp_v0 : run 0xBFFF (fresh.setReg 0 0xFF) (fun t => t.pc == 0x0FE) = true ∧
    run 0xB300 (fresh.setReg 3 4) (fun t => t.pc == 0x300) = true := by decide

/-! ## Load and ALU (T-ALU) -/

theorem test_ld_kk : run 0x6AFF (fresh.setReg 15 9) (fun t => t.reg 10 == 0xFF && t.reg 15 == 9) = true := by decide
theorem test_add_kk : run 0x7220 (fresh.setReg 2 0xF0) (fun t => t.reg 2 == 0x10 && t.reg 15 == 0) = true ∧
    run 0x7FFF (fresh.setReg 15 1) (fun t => t.reg 15 == 0) = true := by decide
theorem test_ld_vy : run 0x8010 (regs 1 0x37 15 9) (fun t => t.reg 0 == 0x37 && t.reg 15 == 9) = true := by decide
theorem test_or : run 0x8011 (regs 0 0xF0 1 0x0F) (fun t => t.reg 0 == 0xFF) = true := by decide
theorem test_and : run 0x8012 (regs 0 0xF3 1 0x3C) (fun t => t.reg 0 == 0x30) = true := by decide
theorem test_xor : run 0x8013 (regs 0 0xFF 1 0x0F) (fun t => t.reg 0 == 0xF0) = true := by decide

/-- T-ALU 8, 11. -/
theorem test_add_vy : run 0x8014 (regs 0 0xFF 1 0x01) (fun t => t.reg 0 == 0 && t.reg 15 == 1) = true ∧
    run 0x8014 (regs 0 0x80 1 0x7F) (fun t => t.reg 0 == 0xFF && t.reg 15 == 0) = true := by decide

/-- T-ALU 25, 26: `VF` as destination and as addend. -/
theorem test_add_vy_with_vf : run 0x8F14 (regs 15 0x10 1 1) (fun t => t.reg 15 == 0) = true ∧
    run 0x80F4 (regs 0 0xFF 15 1) (fun t => t.reg 0 == 0 && t.reg 15 == 1) = true := by decide

/-- T-ALU 14, 15. -/
theorem test_sub : run 0x8015 (regs 0 3 1 5) (fun t => t.reg 0 == 0xFE && t.reg 15 == 0) = true ∧
    run 0x8015 (regs 0 7 1 7) (fun t => t.reg 0 == 0 && t.reg 15 == 1) = true := by decide

/-- T-ALU 27, 32. -/
theorem test_sub_with_vf : run 0x8F15 (regs 15 5 1 3) (fun t => t.reg 15 == 1) = true ∧
    run 0x80F5 (regs 0 1 15 1) (fun t => t.reg 0 == 0 && t.reg 15 == 1) = true := by decide

/-- T-ALU 20, 28; S3. -/
theorem test_shr : run 0x8596 (regs 5 7 9 0xAA) (fun t => t.reg 5 == 3 && t.reg 15 == 1 && t.reg 9 == 0xAA) = true ∧
    run 0x8506 (fresh.setReg 5 2) (fun t => t.reg 5 == 1 && t.reg 15 == 0) = true ∧
    run 0x8F06 (fresh.setReg 15 2) (fun t => t.reg 15 == 0) = true := by decide

/-- T-ALU 21, 22, 30. -/
theorem test_subn : run 0x8017 (regs 0 1 1 0x10) (fun t => t.reg 0 == 0x0F && t.reg 15 == 1) = true ∧
    run 0x8017 (regs 0 0xFE 1 5) (fun t => t.reg 0 == 7 && t.reg 15 == 0) = true ∧
    run 0x8FF7 (fresh.setReg 15 9) (fun t => t.reg 15 == 1) = true := by decide

/-- T-ALU 23, 29. -/
theorem test_shl : run 0x850E (fresh.setReg 5 0x81) (fun t => t.reg 5 == 2 && t.reg 15 == 1) = true ∧
    run 0x850E (fresh.setReg 5 0x7F) (fun t => t.reg 5 == 0xFE && t.reg 15 == 0) = true ∧
    run 0x8F0E (fresh.setReg 15 0x40) (fun t => t.reg 15 == 0) = true := by decide

/-! ## Index and memory (T-IDX) -/

theorem test_ld_i : run 0xA20C fresh (fun t => t.index == 0x20C) = true := by decide

/-- A fresh state with `QUIRK_ADDI_VF` on. -/
def quirky : State := freshWith { cfg with quirkAddiVF := true }

/-- T-IDX 3, 5 with the quirk off. -/
theorem test_add_i : run 0xF21E ((fresh.setIndex 0xFFF).setReg 2 2) (fun t => t.index == 1 && t.reg 15 == 0) = true ∧
    run 0xFF1E ((fresh.setIndex 0xFF8).setReg 15 0x10) (fun t => t.index == 8 && t.reg 15 == 0x10) = true := by decide

/-- T-IDX 4, 5 with the quirk on. -/
theorem test_add_i_quirk :
    run 0xF21E (((quirky.setIndex 0xF00).setReg 2 0xFF).setReg 15 1) (fun t => t.index == 0xFFF && t.reg 15 == 0) = true ∧
    run 0xFF1E ((quirky.setIndex 0xFF8).setReg 15 0x10) (fun t => t.index == 8 && t.reg 15 == 1) = true := by decide

/-- T-IDX 6, 8. -/
theorem test_ld_f : run 0xF129 (fresh.setReg 1 5) (fun t => t.index == 0x069) = true ∧
    run 0xF129 (fresh.setReg 1 0xFF) (fun t => t.index == 0x54B) = true := by decide

/-- T-IDX 11. -/
theorem test_ld_b : run 0xF033 ((fresh.setIndex 0xFFE).setReg 0 255) (fun t =>
    t.byteAt 0xFFE == 2 && t.byteAt 0xFFF == 5 && t.byteAt 0 == 5 && t.index == 0xFFE) = true := by decide

/-- T-IDX 12. -/
theorem test_store_regs : run 0xF155 (((regs 0 0x11 1 0x22).setReg 2 0x33).setIndex 0x400) (fun t =>
    t.byteAt 0x400 == 0x11 && t.byteAt 0x401 == 0x22 && t.byteAt 0x402 == 0 && t.index == 0x400) = true := by decide

/-- T-IDX 15: a store into the next instruction is fetched. -/
theorem test_store_then_fetch : run 0xF155 ((regs 0 0x12 1 0x0A).setIndex 0x202) (fun t => t.fetchWord == 0x120A) = true := by
  decide

/-- T-IDX 14. -/
theorem test_load_regs : run 0xF265 ((bytesAt (fresh.setReg 3 0x77) 0x300 [2, 5, 4]).setIndex 0x300) (fun t =>
    t.reg 0 == 2 && t.reg 1 == 5 && t.reg 2 == 4 && t.reg 3 == 0x77 && t.index == 0x300) = true := by decide

/-- A fresh state with `LOADSTORE_INC_I` on. -/
def incrementing : State := freshWith { cfg with loadStoreIncI := true }

/-- 42_index_memory.md R145: `index` advances by `x + 1`, modulo 4096. -/
theorem test_load_regs_advances_index : run 0xF265 (incrementing.setIndex 0xFFE) (fun t => t.index == 0x001) = true := by
  decide

/-- A fresh state with `ADMIT_UNLISTED4` off. -/
def unadmitting : State := freshWith { cfg with admitUnlisted4 := false }

/-- 42_index_memory.md R146. -/
theorem test_unlisted_refused : exec (.ldF 0) unadmitting = .refused .unlistedNotAdmitted := rfl

/-! ## Display (T-DSP) -/

/-- A state with a sprite at 0x300, `index` there, and the position in `V0`, `V1`. -/
def sprite (bytes : List Byte) (vx vy : Byte) : State := (bytesAt (regs 0 vx 1 vy) 0x300 bytes).setIndex 0x300

theorem test_cls : run 0x00E0 ((fresh.setVideo (Video.toggle fresh.video 5 7)).setReg 15 1) (fun t =>
    rowOn t 7 == [] && t.reg 15 == 1) = true := by decide

/-- T-DSP 4: the start position wraps, then the columns do. -/
theorem test_drw_wraps_columns : run 0xD011 (sprite [0xFF] 124 32) (fun t =>
    rowOn t 0 == [0, 1, 2, 3, 60, 61, 62, 63] && t.reg 15 == 0) = true := by decide

/-- T-DSP 6: bit 7 is column 0, and a collision. -/
theorem test_drw_collision : run 0xD011 ((sprite [0xC0] 0 0).setVideo (Video.toggle fresh.video 0 0)) (fun t =>
    rowOn t 0 == [1] && t.reg 15 == 1) = true := by decide

/-- T-DSP 11: linear addresses. -/
theorem test_fb_addr : fbAddr 60 31 = 2044 ∧ fbAddr 0 0 = 0 ∧ fbAddr 63 31 = 2047 := by decide

/-! ## Keypad, timers, random (T-KEY) -/

/-- T-KEY 4. -/
theorem test_skp : run 0xE49E ((fresh.setReg 4 0x1A).setKey 10 true) (fun t => t.pc == 0x204) = true ∧
    run 0xE49E (fresh.setReg 4 7) (fun t => t.pc == 0x202) = true := by decide
theorem test_sknp : run 0xE4A1 (fresh.setReg 4 7) (fun t => t.pc == 0x204) = true ∧
    run 0xE4A1 ((fresh.setReg 4 7).setKey 7 true) (fun t => t.pc == 0x202) = true := by decide
theorem test_ld_vx_dt : run 0xF307 (fresh.setDelay 0x3C) (fun t => t.reg 3 == 0x3C && t.delayTimer == 0x3C) = true := by
  decide

/-- T-KEY 13, 16: with no key down the cycle blocks and `pc` goes back. -/
theorem test_ld_vx_k_blocks : outcomeOf 0xF50A fresh = some .blocked ∧
    run 0xF50A (fresh.setPc 0xFFE) (fun t => t.pc == 0xFFE && t.opcode == 0xF50A && t.reg 5 == 0) = true := by decide

/-- T-KEY 15. -/
theorem test_ld_vx_k : outcomeOf 0xF50A (fresh.setKey 3 true) = some .completed ∧
    run 0xF50A ((fresh.setKey 9 true).setKey 3 true) (fun t => t.reg 5 == 3 && t.pc == 0x202) = true := by decide
theorem test_ld_dt_vx : run 0xF315 (fresh.setReg 3 0x3C) (fun t => t.delayTimer == 0x3C) = true := by decide

/-- T-KEY 7, 8. -/
theorem test_ld_st_vx : run 0xF318 (fresh.setReg 3 5) (fun t => t.soundTimer == 5 && t.soundOn) = true ∧
    run 0xF318 (fresh.setSound 9) (fun t => t.soundTimer == 0 && !t.soundOn) = true := by decide

/-- T-KEY 18, 19: a supplied byte, one draw also with `kk = 0`. -/
theorem test_rnd : run 0xC30F (State.resetWith 0 [0xB7] cfg) (fun t => t.reg 3 == 0x07) = true ∧
    run 0xC300 (State.resetWith 0 [0xB7, 0x11] cfg) (fun t => t.reg 3 == 0 && t.entropy.supplied == [0x11]) = true := by
  decide

/-! ## The host -/

/-- T-KEY 9, 10, 12. -/
theorem test_tick : ((fresh.setDelay 2).setSound 1).tick.delayTimer = 1 ∧ ((fresh.setDelay 2).setSound 1).tick.soundTimer = 0 ∧
    (fresh.setSound 0).tick.soundTimer = 0 ∧ (fresh.setDelay 255).tick.delayTimer = 254 := by decide

/-- T-FLT 3, 4: the host acts on a faulted core; reset clears the fault. -/
theorem test_host_on_faulted_core :
    ((raise .unknownOpcode fresh).setKey 2 true).keyDown 2 = true ∧
    (raise .unknownOpcode fresh).tick.fault = some .unknownOpcode ∧
    move (.reset 0 [] cfg) (raise .unknownOpcode fresh) = .next (fresh, .done) := ⟨by decide, by decide, rfl⟩

/-- T-HOST 5: the tail of the first load stays. -/
theorem test_load_rom_twice :
    (bytesAt (bytesAt fresh 0x200 [0xAA, 0xBB, 0xCC]) 0x200 [0x11]).byteAt 0x201 = 0xBB ∧
    (fresh.loadRom [0xAA, 0xBB]).map (fun t => t.byteAt 0x200) = some 0xAA := by decide

/-- T-HOST 4: the font. -/
theorem test_reset_font : (List.range 5).map (fun k => fresh.byteAt (0x050 + k)) = [0xF0, 0x90, 0x90, 0x90, 0xF0] ∧
    (List.range 5).map (fun k => fresh.byteAt (0x09B + k)) = [0xF0, 0x80, 0xF0, 0x80, 0x80] ∧
    fresh.byteAt 0x04F = 0 ∧ fresh.byteAt 0x0A0 = 0 ∧ fresh.pc = 0x200 := by decide

/-! ## Witnesses: for each statement with hypotheses, a state and operands that meet them -/

/-- An outcome is a next state that passes a check. -/
def passes (o : Host.Outcome State Fault Refusal) (check : State → Bool) : Bool :=
  match o with
  | .next t => check t
  | .fault _ => false
  | .refused _ => false

theorem next_of_passes {o : Host.Outcome State Fault Refusal} {P : State → Prop} [∀ t, Decidable (P t)]
    (h : passes o (fun t => decide (P t)) = true) : ∃ t, o = .next t ∧ P t := by
  cases o with
  | next t => exact ⟨t, rfl, of_decide_eq_true h⟩
  | fault e => exact nomatch h
  | refused r => exact nomatch h

/-- A fresh state with a word at `pc`. -/
def at200 (w : Nat) : State := fresh.withFetchWord 16 w

/-- A state with a stack pointer, all slots zero, and a word at `pc`. -/
def atSp (sp : Fin 17) (w : Nat) : State := (stackAt sp 0 0).withFetchWord 16 w

theorem fresh_inv : fresh.Inv := ⟨by decide, by decide, by decide, by decide, by decide⟩
theorem atSp_15_inv : (atSp 15 0x2FFF).Inv := ⟨by decide, by decide, by decide, by decide, by decide⟩
theorem at200_wait_inv : (at200 0xF50A).Inv := ⟨by decide, by decide, by decide, by decide, by decide⟩

theorem witness_EncodeOfDecodeClearsOnlyUnexaminedBits :
    decodeWord 0x512F = .ok (.seVy 1 2) ∧ decodeWord 0x9ABF = .ok (.sneVy 10 11) ∧ decodeWord 0x8AB6 = .ok (.shr 10) ∧
    decodeWord 0x8ABE = .ok (.shl 10) ∧ decodeWord 0x1FFF = .ok (.jp 0xFFF) := by decide

theorem witness_WordSelectsExactlyItsRow : ⟨0xF00F, 0x8004⟩ ∈ opcodeTable ∧ ⟨0xFFFF, 0x00EE⟩ ∈ opcodeTable := by decide

theorem witness_StepRunsTheDecodedInstruction :
    let s := (fresh.setPc 0xFFF).withFetchWord 16 0x12FF
    s.fault = none ∧ (0x12FF : Word) = s.byteAt (s.pc.toNat % 4096) ++ s.byteAt ((s.pc.toNat + 1) % 4096) ∧
    decodeWord 0x12FF = .ok (.jp 0x2FF) := by decide

theorem witness_UnknownOpcodeFaultsAfterTheFetch :
    (at200 0x8008).fault = none ∧ decodeWord (at200 0x8008).fetchWord = .error (.unknownOpcode 0x8008) := by decide

theorem witness_FaultedCoreAnswersItsFault : (raise .stackOverflow fresh).fault = some .stackOverflow := rfl

theorem witness_UnfaultedCoreAlwaysGoesOn : fresh.fault = none ∧ fresh.config.admitUnlisted4 = true := by decide

theorem witness_EachFault_unknown : ∃ t, step (at200 0) = .next t ∧ t.fault = some .unknownOpcode :=
  next_of_passes (by decide)
theorem witness_EachFault_overflow : (∃ t, step (atSp 16 0x2300) = .next t ∧ t.fault = some .stackOverflow) ∧
    (∃ t, step (atSp 15 0x2300) = .next t ∧ t.fault = none) :=
  ⟨next_of_passes (by decide), next_of_passes (by decide)⟩
theorem witness_EachFault_underflow : (∃ t, step (atSp 0 0x00EE) = .next t ∧ t.fault = some .stackUnderflow) ∧
    (∃ t, step (atSp 1 0x00EE) = .next t ∧ t.fault = none) :=
  ⟨next_of_passes (by decide), next_of_passes (by decide)⟩

theorem witness_OnlyWaitForKeyBlocks : (at200 0xF50A).Inv ∧ (at200 0xF50A).fault = none ∧
    (∃ t, cycle (at200 0xF50A) = .next (t, .blocked)) ∧
    (∃ t, cycle ((at200 0xF50A).setKey 15 true) = .next (t, .completed)) :=
  ⟨at200_wait_inv, rfl, ⟨_, rfl⟩, ⟨_, rfl⟩⟩

theorem witness_StepKeepsTheInvariant : (atSp 15 0x2FFF).Inv ∧ ∃ t, step (atSp 15 0x2FFF) = .next t ∧ t.sp = 16 :=
  ⟨atSp_15_inv, next_of_passes (by decide)⟩

theorem witness_HostMovesKeepTheInvariant : fresh.Inv ∧
    (Move.reset 1 [] { cfg with fontBase := 0x1B0 }).wellFormed = true ∧
    (∃ t r, move (.reset 1 [] { cfg with fontBase := 0x1B0 }) fresh = .next (t, r)) ∧
    (∃ t r, move (.loadRom [0x12, 0x00]) fresh = .next (t, r)) :=
  ⟨fresh_inv, by decide, ⟨_, _, rfl⟩, ⟨_, _, rfl⟩⟩

theorem witness_OnlyDrawAndClearChangeTheFramebuffer :
    (∃ t, step (at200 0x6AFF) = .next t ∧ t.reg 10 = 0xFF) ∧ decodeWord (at200 0x6AFF).fetchWord = .ok (.ldKk 10 0xFF) ∧
    (∃ t r, move .tick fresh = .next (t, r)) :=
  ⟨next_of_passes (by decide), by decide, ⟨_, _, rfl⟩⟩

theorem witness_CyclesNeverWriteKeypadOrConfiguration : ∃ t, step (at200 0xC3FF) = .next t ∧ t.entropy.draws = 1 :=
  next_of_passes (by decide)

theorem witness_OnlyTheTwoStoresWriteMemory :
    (∃ t, step ((fresh.setIndex 0xFFE).setReg 0 255 |>.withFetchWord 16 0xF033) = .next t ∧ t.byteAt 0xFFE ≠ 0) ∧
    (∃ t, step ((fresh.setIndex 0xFF1).setReg 15 7 |>.withFetchWord 16 0xFF55) = .next t ∧ t.byteAt 0 ≠ 0) :=
  ⟨next_of_passes (by decide), next_of_passes (by decide)⟩

theorem witness_OnlyCallAndReturnReachTheStack :
    (∃ t, step (at200 0x6AFF) = .next t ∧ t.sp = 0) ∧ (∃ t, step (atSp 1 0x2300) = .next t ∧ t.sp = 2) ∧
    (0 : Fin 16).val < (atSp 1 0x2300).sp.val :=
  ⟨next_of_passes (by decide), next_of_passes (by decide), by decide⟩

theorem witness_TimersEntropyAndIndexHaveTheirOwnWriters :
    (∃ t, step ((fresh.setReg 3 9).withFetchWord 16 0xF315) = .next t ∧ t.delayTimer ≠ 0) ∧
    (∃ t, step ((fresh.setReg 3 9).withFetchWord 16 0xF318) = .next t ∧ t.soundTimer ≠ 0) ∧
    (∃ t, step (at200 0xC300) = .next t ∧ t.entropy ≠ (at200 0xC300).entropy) ∧
    (∃ t, step (incrementing.withFetchWord 16 0xF065) = .next t ∧ t.index ≠ 0) :=
  ⟨next_of_passes (by decide), next_of_passes (by decide), next_of_passes (by decide), next_of_passes (by decide)⟩

theorem witness_NoInstructionReadsTheSoundTimer : ∃ t, step ((fresh.setSound 3).withFetchWord 16 0xF307) = .next t ∧
    t.soundTimer = 3 := next_of_passes (by decide)

theorem witness_RegistersChangeOnlyAsDestinationOrFlag :
    ((∃ t, exec (.loadRegs 3) fresh = .next t ∧ t.pc = fresh.pc) ∧ ¬ Instr.hasDest (.loadRegs 3) 4) ∧
    ((∃ t, exec (.addI 0) fresh = .next t ∧ t.pc = fresh.pc) ∧ ¬ Instr.hasDest (.addI 0) 15 ∧
      ¬ Instr.writesFlag (.addI 0) fresh.config) :=
  ⟨⟨next_of_passes (by decide), by simp [Instr.hasDest]⟩,
    next_of_passes (by decide), by simp [Instr.hasDest], by simp [Instr.writesFlag, fresh, freshWith, State.resetWith, cfg,
      Config.defaults]⟩

theorem witness_FlagWritersLeaveVFZeroOrOne :
    ((∃ t, exec (.subVy 15 0) fresh = .next t ∧ t.reg 15 = 1) ∧ Instr.writesFlag (.subVy 15 0) fresh.config ∧
      fresh.config.vfDestPolicy = .flagWins) ∧
    ((∃ t, exec (.addI 0) quirky = .next t ∧ t.reg 15 = 0) ∧ Instr.writesFlag (.addI 0) quirky.config ∧
      quirky.config.vfDestPolicy = .flagWins) :=
  ⟨⟨next_of_passes (by decide), trivial, rfl⟩, next_of_passes (by decide), rfl, rfl⟩

theorem witness_StoreIsSeenByTheNextFetch : (fresh.setIndex 0x200).Inv ∧
    (fresh.setIndex 0x200).config.admitUnlisted4 = true ∧ (1 : RegNo) ≤ 1 ∧ (fresh.setIndex 0x200).index = fresh.pc :=
  ⟨⟨by decide, by decide, by decide, by decide, by decide⟩, by decide, by decide, by decide⟩

theorem witness_StoppedProgramStaysStopped : (at200 0x1200).Stopped := ⟨rfl, 0x200, by decide, by decide⟩

theorem witness_CompareSkips :
    (fresh.setReg 3 0x2A).reg 3 = 0x2A ∧ fresh.reg 3 ≠ 0x2A ∧ (regs 1 7 2 7).reg 1 = (regs 1 7 2 7).reg 2 ∧
    (regs 1 7 2 8).reg 1 ≠ (regs 1 7 2 8).reg 2 := by decide

theorem witness_CallPushesTheReturnAddress :
    (stackAt 0 0 0).sp.val < 16 ∧ (stackAt 15 0 0).sp.val < 16 ∧ (stackAt 16 0 0).sp.val = 16 := by decide

theorem witness_ReturnPopsTheReturnAddress :
    0 < (stackAt 16 0 0).sp.val ∧ 0 < (stackAt 1 0 0).sp.val ∧ (stackAt 0 0 0).sp.val = 0 := by decide

theorem witness_BalancedCallsAndReturnsAreDepthNeutral :
    (List.replicate 16 (0x300 : Imm12)).length + fresh.sp.val ≤ 16 ∧ fresh.sp.val = 0 ∧
    (List.replicate 1 (0x300 : Imm12)).length + (stackAt 15 0 0).sp.val ≤ 16 := by decide

theorem witness_EverySkipContinuesTwoOrFourOn : (at200 0xE3A1).fault = none ∧
    decodeWord (at200 0xE3A1).fetchWord = .ok (.sknp 3) ∧ (0 : KeyNo).val = ((at200 0xE3A1).reg 3).toNat % 16 ∧
    (!(at200 0xE3A1).keyDown 0) = true := by decide

theorem witness_AddRegistersSetsTheCarryLast : (14 : RegNo) ≠ 15 ∧
    255 < ((regs 14 0xFF 15 1).reg 14).toNat + ((regs 14 0xFF 15 1).reg 15).toNat ∧
    ¬ 255 < ((regs 14 0xFE 15 1).reg 14).toNat + ((regs 14 0xFE 15 1).reg 15).toNat := by decide

theorem witness_SubtractionsWrapAndFlagNoBorrow : (14 : RegNo) ≠ 15 ∧
    ((regs 14 7 15 7).reg 15).toNat ≤ ((regs 14 7 15 7).reg 14).toNat ∧
    ¬ ((regs 14 7 15 8).reg 15).toNat ≤ ((regs 14 7 15 8).reg 14).toNat := by decide

theorem witness_ShiftsMoveByOneAndKeepTheBitShiftedOut : (14 : RegNo) ≠ 15 ∧ (0 : RegNo) ≠ 15 := by decide

theorem witness_FlagWinsWhenVFIsTheDestination : fresh.config.vfDestPolicy = .flagWins := rfl

/-- A fresh state that leaves the write of `VF` open. -/
def undecided : State := freshWith { cfg with vfDestPolicy := .unsettled }

theorem witness_UnsettledPolicyKeepsOneOfTheTwoWrites : undecided.config.vfDestPolicy = .unsettled := rfl

theorem witness_AddToIndexWrapsUnderBothQuirkValues : fresh.config.quirkAddiVF = false ∧ quirky.config.quirkAddiVF = true ∧
    0xFFF < (quirky.setIndex 0xFFF).index.toNat + ((quirky.setReg 0 1).reg 0).toNat := by decide

/-- A fresh state with a byte listed in memory. -/
def written : State := bytesAt fresh 0xFFF [0x77]

/-- It meets what the four unlisted instructions ask for, with an `index` whose transfer wraps. -/
theorem witness_UnlistedInstructionsAdmitted : written.config.admitUnlisted4 = true ∧ written.mem = [(0xFFF, 0x77)] ∧
    Memory.wf written.config written.mem = true ∧ written.config.loadStoreIncI = false ∧
    incrementing.config.admitUnlisted4 = true ∧ Memory.wf incrementing.config incrementing.mem = true ∧
    incrementing.config.loadStoreIncI = true ∧ memAddr 0xFFE 2 = 0 := by decide

theorem witness_StoredRegistersLoadBack : written.config.admitUnlisted4 = true ∧
    Memory.wf written.config written.mem = true ∧ (14 : RegNo) < 15 ∧ (15 : RegNo) ≤ 15 := by decide

theorem witness_UnlistedInstructionsAreRefusedWhenNotAdmitted : unadmitting.config.admitUnlisted4 = false := rfl

/-- The sprite 0x80 at column 63: the pixel (63, 31) is covered, its neighbour (0, 31) is not. -/
theorem witness_DrawInvertsExactlyTheCoveredPixels :
    (sprite [0x80] 63 31).SpriteCovers 63 31 1 63 31 ∧ ¬ (sprite [0x80] 63 31).SpriteCovers 63 31 1 0 31 := by
  refine ⟨⟨0, by decide, 0, by decide, by decide, by decide, by decide⟩, ?_⟩
  rintro ⟨row, hrow, col, hcol, hbit, hpx, -⟩
  obtain rfl : row = 0 := by omega
  obtain rfl : col = 1 := by
    simp only [show ((63 : Byte)).toNat = 63 from rfl] at hpx
    have : ((0 : Fin 64)).val = 0 := rfl
    omega
  exact absurd hbit (by decide)

theorem witness_DoubleDrawRestoresTheFramebuffer :
    ∃ t, exec (.drw 0 1 1) (sprite [0x80] 63 31) = .next t ∧ t.reg 0 = (sprite [0x80] 63 31).reg 0 ∧
      t.reg 1 = (sprite [0x80] 63 31).reg 1 := next_of_passes (by decide)

theorem witness_KeySkipsTestTheKeyModulo16 : (10 : KeyNo).val = ((fresh.setReg 4 0x1A).reg 4).toNat % 16 ∧
    ((fresh.setReg 4 0x1A).setKey 10 true).keyDown 10 = true ∧ (fresh.setReg 4 0x1A).keyDown 10 = false := by decide

theorem witness_WaitForKeyStoresTheSmallestPressedKey :
    let s := (fresh.setKey 15 true).setKey 3 true
    s.config.keywaitMode = .levelLowest ∧ s.keyDown 3 = true ∧ ∀ j < (3 : KeyNo), s.keyDown j = false := by decide

/-- A fresh state that leaves the reported key open. -/
def anyKey : State := freshWith { cfg with keywaitMode := .levelAny }

theorem witness_WaitForKeyStoresSomePressedKey : (anyKey.setKey 15 true).config.keywaitMode = .levelAny ∧
    ∃ k, (anyKey.setKey 15 true).keyDown k = true := ⟨rfl, 15, by decide⟩

theorem witness_WaitForKeyRewindsWithNoKeyDown : ∀ k, fresh.keyDown k = false := by decide

theorem witness_RandomAndsOneDraw : (State.resetWith 0 [0xB7, 0x11] cfg).entropy.supplied = [0xB7, 0x11] := rfl

theorem witness_LoadRomIsAllOrNothing : (List.replicate 3584 (0x11 : Byte)).length ≤ 3584 ∧
    3584 < (List.replicate 3585 (0x11 : Byte)).length ∧ Memory.wf fresh.config fresh.mem = true := by
  rw [List.length_replicate, List.length_replicate]; decide

end Sys2Proof.Tests
end

section
/-! PROOFS. The memory after reset (10_state.md R37, 20_memory.md R51, R52). -/

namespace Sys2Proof.Machine

/-- The font table is laid out glyph after glyph, five rows each, from `FONT_BASE` on (20_memory.md R52). -/
theorem resetByte_font (c : Config) (d : Fin 16) (row : Fin 5) :
    resetByte c (c.fontBase + 5 * d.val + row.val) = c.font[d][row] := by
  have inTable : c.fontBase ≤ c.fontBase + 5 * d.val + row.val ∧
      c.fontBase + 5 * d.val + row.val < c.fontBase + 80 := by omega
  have glyph : (c.fontBase + 5 * d.val + row.val - c.fontBase) / 5 = d.val := by omega
  have glyphRow : (c.fontBase + 5 * d.val + row.val - c.fontBase) % 5 = row.val := by omega
  simp [resetByte, inTable, glyph, glyphRow]

theorem resetByte_of_not_font {c : Config} {a : Nat} (h : ¬(c.fontBase ≤ a ∧ a < c.fontBase + 80)) :
    resetByte c a = 0 := dif_neg h

/-- No cell is listed after reset, so every address reads as its reset byte. -/
@[simp] theorem resetWith_byteAt (seed : Nat) (supplied : List Byte) (c : Config) (a : Nat) :
    (State.resetWith seed supplied c).byteAt a = resetByte c a := rfl

/-- Settles O15: `pc` and the seed stand in the reset state, and its memory reads as the reset bytes. -/
theorem resetDoesWhatTheSourceStates : Obligations.ResetDoesWhatTheSourceStates := by
  intro seed supplied c
  refine ⟨rfl, rfl, fun a outside => ?zeroed, fun d row => ?font⟩
  case zeroed => exact (resetWith_byteAt seed supplied c a).trans (resetByte_of_not_font outside)
  case font => exact (resetWith_byteAt seed supplied c _).trans (resetByte_font c d row)

end Sys2Proof.Machine
end

section
/-! PROOFS. The two-byte fetch and the load of a ROM (20_memory.md R54, R56). -/

namespace Sys2Proof.Machine

/-! ## The fetch -/

/-- The two bytes of a fetch wrap at the top of memory, and the one at `pc` stands in bits 15..8. -/
theorem fetchWord_eq_append (s : State) :
    s.fetchWord = s.byteAt (s.pc.toNat % 4096) ++ s.byteAt ((s.pc.toNat + 1) % 4096) := rfl

/-- Settles O6: the word of the statement is the fetched one, and its state the one after the fetch. -/
theorem stepRunsTheDecodedInstruction : Obligations.StepRunsTheDecodedInstruction := by
  intro s i w noFault hw decodes
  have fetches : w = s.fetchWord := hw.trans (fetchWord_eq_append s).symm
  subst fetches
  have nextDecodes : s.nextInstr = .ok i := (nextInstr_eq s).trans decodes
  exact step_of_ok noFault nextDecodes

/-! ## The load of a ROM -/

theorem move_loadRom_of_fits {bytes : List Byte} (h : bytes.length ≤ 3584) (s : State) :
    move (.loadRom bytes) s = .next (s.memWriteAll 0x200 0 bytes, .done) := by
  simp [move, State.loadRom, romFits, h]

theorem move_loadRom_of_too_large {bytes : List Byte} (h : 3584 < bytes.length) (s : State) :
    move (.loadRom bytes) s = .next (s, .romTooLarge) := by
  simp [move, State.loadRom, romFits, Nat.not_le.mpr h]

/-- Within `ROM_MAX` the addresses of a load run up from 0x200 without a wrap. -/
theorem memAddr_rom {j : Nat} (h : j < 3584) : memAddr 0x200 (0 + j) = 0x200 + j := by
  show (512 + (0 + j)) % 4096 = 512 + j
  omega

/-- The parts that the frame of a run of writes at 0x200 names are the bytes from 0x200 up. -/
theorem rom_parts {n : Nat} (h : n ≤ 3584) :
    (List.range n).map (fun j => Part.byte (memAddr 0x200 (0 + j))) =
      (List.range n).map fun j => Part.byte (0x200 + j) :=
  List.map_congr_left fun j hj => by rw [memAddr_rom (by have := List.mem_range.mp hj; omega)]

/-- Settles O60: a ROM that fits is a run of writes at 0x200, which reads back there and touches nothing else; the
size is checked before the first write. -/
theorem loadRomIsAllOrNothing : Obligations.LoadRomIsAllOrNothing := by
  intro bytes s
  refine ⟨fun fits => ⟨_, move_loadRom_of_fits fits s, fun wf j hj => ?readBack, ?frame⟩,
    fun large => move_loadRom_of_too_large large s⟩
  case readBack =>
    rw [← memAddr_rom (by omega : j < 3584)]
    exact memWriteAll_byteAt wf 0x200 0 bytes j hj (by omega)
  case frame =>
    rw [← rom_parts fits]
    exact unchanged_memWriteAll s 0x200 0 bytes

end Sys2Proof.Machine
end

section
/-! PROOFS. Jumps, compare skips, call and return (40_control_flow.md R100 to R108). -/

namespace Sys2Proof.Machine

/-! ## Jumps -/

/-- Settles O27: the zero-extended immediate is the target as it stands. -/
theorem jumpSetsPc : Obligations.JumpSetsPc := fun nnn s =>
  ⟨s.setPc (zext16 nnn), rfl, zext16_toNat nnn, unchanged_setPc s _⟩

/-- Settles O28: the one wrapped addition of addresses is the sum modulo 4096. -/
theorem jumpWithOffsetAddsV0 : Obligations.JumpWithOffsetAddsV0 := by
  intro nnn s
  refine ⟨s.setPc (addrAdd (zext16 nnn) (s.reg 0).toNat), rfl, ?target, unchanged_setPc s _⟩
  case target => rw [setPc_pc, addrAdd_toNat, zext16_toNat]

/-! ## Skips -/

theorem exec_seKk (x : RegNo) (kk : Byte) (s : State) :
    exec (.seKk x kk) s = .next (s.skipIf (s.reg x == kk)) := rfl

theorem exec_sneKk (x : RegNo) (kk : Byte) (s : State) :
    exec (.sneKk x kk) s = .next (s.skipIf (s.reg x != kk)) := rfl

theorem exec_seVy (x y : RegNo) (s : State) :
    exec (.seVy x y) s = .next (s.skipIf (s.reg x == s.reg y)) := rfl

theorem exec_sneVy (x y : RegNo) (s : State) :
    exec (.sneVy x y) s = .next (s.skipIf (s.reg x != s.reg y)) := rfl

theorem skipIf_pc_toNat_of_true {c : Bool} (h : c = true) (s : State) :
    (s.skipIf c).pc.toNat = (s.pc.toNat + 2) % 4096 := by
  rw [skipIf_eq, if_pos h, addrAdd_toNat]

theorem skipIf_pc_of_false {c : Bool} (h : c = false) (s : State) : (s.skipIf c).pc = s.pc := by
  subst h
  rfl

/-- An instruction that is a skip on the test `c` moves `pc` on wherever `P` makes the test succeed and leaves it
wherever `Q` makes it fail. -/
theorem exec_skip {i : Instr} {s : State} {c : Bool} {P Q : Prop} (skips : exec i s = .next (s.skipIf c))
    (taken : P → c = true) (untaken : Q → c = false) :
    ∃ t, exec i s = .next t ∧ UnchangedExcept [.pc] s t ∧
      (P → t.pc.toNat = (s.pc.toNat + 2) % 4096) ∧ (Q → t.pc = s.pc) :=
  ⟨s.skipIf c, skips, unchanged_skipIf s c, fun p => skipIf_pc_toNat_of_true (taken p) s,
    fun q => skipIf_pc_of_false (untaken q) s⟩

/-- Settles O29: each of the four is a skip on a boolean comparison, which decides the equality. -/
theorem compareSkipsAdvanceByTwoWhenTheConditionHolds :
    Obligations.CompareSkipsAdvanceByTwoWhenTheConditionHolds := fun x y kk s =>
  ⟨exec_skip (exec_seKk x kk s) beq_iff_eq.mpr beq_eq_false_iff_ne.mpr,
    exec_skip (exec_sneKk x kk s) bne_iff_ne.mpr bne_eq_false_iff_eq.mpr,
    exec_skip (exec_seVy x y s) beq_iff_eq.mpr beq_eq_false_iff_ne.mpr,
    exec_skip (exec_sneVy x y s) bne_iff_ne.mpr bne_eq_false_iff_eq.mpr⟩

/-! ## Call -/

/-- A push succeeds while a slot is free: it fills the slot at `sp` and moves `sp` up. -/
theorem push_of_room {s : State} (room : s.sp.val < 16) (a : Word) :
    ∃ t, s.push a = some t ∧ t.stack[s.sp.val] = a ∧ t.sp.val = s.sp.val + 1 ∧
      UnchangedExcept [.sp, .slot ⟨s.sp.val, room⟩] s t := by
  have succeeds : s.push a ≠ none := fun h => by have := (push_eq_none s a).mp h; omega
  obtain ⟨t, pushed⟩ := Option.ne_none_iff_exists'.mp succeeds
  obtain ⟨_, frame⟩ := unchanged_push pushed
  obtain ⟨_, rfl⟩ := push_cases pushed
  exact ⟨_, pushed, Vector.getElem_set_self room, rfl, frame⟩

theorem exec_call_of_push {s t : State} (pushed : s.push s.pc = some t) (nnn : Imm12) :
    exec (.call nnn) s = .next (t.setPc (zext16 nnn)) := by
  simp only [exec, execCall, pushed]

theorem exec_call_of_full {s : State} (full : s.sp.val = 16) (nnn : Imm12) :
    exec (.call nnn) s = .next (raise .stackOverflow s) := by
  simp only [exec, execCall, (push_eq_none s s.pc).mpr full]

/-- Settles O30: with a free slot the call is a push and a jump, with none it is a raise. -/
theorem callPushesTheReturnAddress : Obligations.CallPushesTheReturnAddress := by
  intro nnn s
  refine ⟨fun room => ?pushes, fun full => ?overflows⟩
  case pushes =>
    obtain ⟨t, pushed, slot, sp, frame⟩ := push_of_room room s.pc
    exact ⟨t.setPc (zext16 nnn), exec_call_of_push pushed nnn, slot, sp, zext16_toNat nnn,
      (frame.mono (by simp)).trans ((unchanged_setPc t _).mono (by simp))⟩
  case overflows =>
    exact ⟨_, exec_call_of_full full nnn, raise_fault s _, unchanged_raise _ s⟩

/-! ## Return -/

/-- A pop succeeds while a slot is taken: it answers the slot below `sp`, which keeps its value, and moves `sp` down. -/
theorem pop_of_nonempty {s : State} (nonempty : 0 < s.sp.val) :
    ∃ t, s.pop = some (s.stack[s.sp.val - 1]'(by have := s.sp.isLt; omega), t) ∧ t.sp.val = s.sp.val - 1 ∧
      UnchangedExcept [.sp] s t := by
  have succeeds : s.pop ≠ none := fun h => by have := (pop_eq_none s).mp h; omega
  obtain ⟨⟨a, t⟩, popped⟩ := Option.ne_none_iff_exists'.mp succeeds
  have frame := unchanged_pop popped
  obtain ⟨_, rfl, rfl⟩ := pop_cases popped
  exact ⟨_, popped, rfl, frame⟩

theorem exec_ret_of_pop {s t : State} {a : Word} (popped : s.pop = some (a, t)) :
    exec .ret s = .next (t.setPc a) := by
  simp only [exec, execRet, popped]

theorem exec_ret_of_empty {s : State} (empty : s.sp.val = 0) :
    exec .ret s = .next (raise .stackUnderflow s) := by
  simp only [exec, execRet, (pop_eq_none s).mpr empty]

/-- Settles O31: with a taken slot the return is a pop and a jump, with none it is a raise. -/
theorem returnPopsTheReturnAddress : Obligations.ReturnPopsTheReturnAddress := by
  intro s
  refine ⟨fun nonempty => ?pops, fun empty => ?underflows⟩
  case pops =>
    obtain ⟨t, popped, sp, frame⟩ := pop_of_nonempty nonempty
    exact ⟨_, exec_ret_of_pop popped, setPc_pc t _, sp,
      (frame.mono (by simp)).trans ((unchanged_setPc t _).mono (by simp))⟩
  case underflows =>
    exact ⟨_, exec_ret_of_empty empty, raise_fault s _, unchanged_raise _ s⟩

end Sys2Proof.Machine
end

section
/-! PROOFS. Loads, arithmetic, logic and shifts (41_load_alu.md R120 to R132). -/

namespace Sys2Proof.Machine

/-! ## What each handler writes -/

theorem exec_ldKk (x : RegNo) (kk : Byte) (s : State) : exec (.ldKk x kk) s = .next (s.setReg x kk) := rfl

theorem exec_ldVy (x y : RegNo) (s : State) : exec (.ldVy x y) s = .next (s.setReg x (s.reg y)) := rfl

theorem exec_addKk (x : RegNo) (kk : Byte) (s : State) :
    exec (.addKk x kk) s = .next (s.setReg x (s.reg x + kk)) := rfl

theorem exec_orVy (x y : RegNo) (s : State) :
    exec (.orVy x y) s = .next (s.setReg x (s.reg x ||| s.reg y)) := rfl

theorem exec_andVy (x y : RegNo) (s : State) :
    exec (.andVy x y) s = .next (s.setReg x (s.reg x &&& s.reg y)) := rfl

theorem exec_xorVy (x y : RegNo) (s : State) :
    exec (.xorVy x y) s = .next (s.setReg x (s.reg x ^^^ s.reg y)) := rfl

theorem exec_addVy (x y : RegNo) (s : State) :
    exec (.addVy x y) s = .next (s.setResultFlag x (s.reg x + s.reg y) (carryFlag (s.reg x) (s.reg y))) := rfl

theorem exec_subVy (x y : RegNo) (s : State) : exec (.subVy x y) s =
    .next (s.setResultFlagByPolicy x (s.reg x - s.reg y) (noBorrowFlag (s.reg x) (s.reg y))) := rfl

theorem exec_subnVy (x y : RegNo) (s : State) : exec (.subnVy x y) s =
    .next (s.setResultFlagByPolicy x (s.reg y - s.reg x) (noBorrowFlag (s.reg y) (s.reg x))) := rfl

theorem exec_shr (x : RegNo) (s : State) :
    exec (.shr x) s = .next (s.setResultFlagByPolicy x (s.reg x >>> 1) (shiftRightFlag (s.reg x))) := rfl

theorem exec_shl (x : RegNo) (s : State) :
    exec (.shl x) s = .next (s.setResultFlagByPolicy x (s.reg x <<< 1) (shiftLeftFlag (s.reg x))) := rfl

/-! ## A result and no flag -/

/-- Settles O34: each load is one register write. -/
theorem loadsWriteOnlyTheirDestination : Obligations.LoadsWriteOnlyTheirDestination := fun x y kk s =>
  ⟨⟨_, exec_ldKk x kk s, setReg_reg_self s x _, unchanged_setReg s x _⟩,
    ⟨_, exec_ldVy x y s, setReg_reg_self s x _, unchanged_setReg s x _⟩⟩

/-- Settles O35: the one register write stores the sum of two bytes, which wraps by itself. -/
theorem addImmediateWrapsAndWritesNoFlag : Obligations.AddImmediateWrapsAndWritesNoFlag := by
  intro x kk s
  refine ⟨_, exec_addKk x kk s, ?sum, unchanged_setReg s x _⟩
  case sum => rw [setReg_reg_self, BitVec.toNat_add]

/-- Settles O36: each is one register write, of a word whose bits the library gives. -/
theorem bitwiseInstructionsActBitByBit : Obligations.BitwiseInstructionsActBitByBit := by
  intro x y s
  refine ⟨⟨_, exec_orVy x y s, unchanged_setReg s x _, fun k => ?or⟩,
    ⟨_, exec_andVy x y s, unchanged_setReg s x _, fun k => ?and⟩,
    ⟨_, exec_xorVy x y s, unchanged_setReg s x _, fun k => ?xor⟩⟩
  case or => rw [setReg_reg_self, BitVec.getLsbD_or]
  case and => rw [setReg_reg_self, BitVec.getLsbD_and]
  case xor => rw [setReg_reg_self, BitVec.getLsbD_xor]

/-! ## The values of a result and of a flag -/

theorem byte_sub_toNat (a b : Byte) : (a - b).toNat = (a.toNat + 256 - b.toNat) % 256 := by
  rw [BitVec.toNat_sub', ← Nat.add_sub_assoc b.isLt.le]

theorem byte_shiftRight_one_toNat (a : Byte) : (a >>> 1).toNat = a.toNat / 2 := by
  rw [BitVec.toNat_ushiftRight, Nat.shiftRight_eq_div_pow, pow_one]

theorem byte_shiftLeft_one_toNat (a : Byte) : (a <<< 1).toNat = 2 * a.toNat % 256 := by
  rw [BitVec.toNat_shiftLeft, Nat.shiftLeft_eq, pow_one, Nat.mul_comm]

theorem carryFlag_toNat (a b : Byte) : (carryFlag a b).toNat = if 255 < a.toNat + b.toNat then 1 else 0 := by
  simp only [carryFlag, flagByte_toNat, decide_eq_true_eq]

theorem noBorrowFlag_toNat (a b : Byte) : (noBorrowFlag a b).toNat = if b.toNat ≤ a.toNat then 1 else 0 := by
  simp only [noBorrowFlag, flagByte_toNat, decide_eq_true_eq]

/-- A mask with 1 is the remainder by 2. -/
theorem byte_and_one_toNat (a : Byte) : (a &&& 1).toNat = a.toNat % 2 := by
  rw [BitVec.toNat_and]
  exact Nat.and_one_is_mod a.toNat

theorem shiftRightFlag_toNat (a : Byte) : (shiftRightFlag a).toNat = a.toNat % 2 := byte_and_one_toNat a

/-- The quotient by 128 is at most 1, so the mask loses nothing. -/
theorem shiftLeftFlag_toNat (a : Byte) : (shiftLeftFlag a).toNat = a.toNat / 128 := by
  have := a.isLt
  rw [shiftLeftFlag, byte_and_one_toNat, BitVec.toNat_ushiftRight, Nat.shiftRight_eq_div_pow]
  omega

/-! ## A result and a flag -/

/-- An instruction that writes a result and then a flag: the flag always stands in `VF` afterwards, the result stands
in `Vx` unless that is `VF`. -/
theorem exec_resultFlag {i : Instr} {s : State} {x : RegNo} {result flag : Byte} {r f : Nat}
    (writes : exec i s = .next (s.setResultFlag x result flag)) (hr : result.toNat = r) (hf : flag.toNat = f) :
    ∃ t, exec i s = .next t ∧ (x ≠ 15 → (t.reg x).toNat = r) ∧ (t.reg 15).toNat = f ∧
      UnchangedExcept [.reg x, .reg 15] s t := by
  refine ⟨_, writes, fun notF => ?result, ?flag, unchanged_setResultFlag s x result flag⟩
  case result => rw [setResultFlag_reg, if_neg notF, if_pos rfl, hr]
  case flag => rw [setResultFlag_reg, if_pos rfl, hf]

/-- Away from `VF` the policy leaves nothing open. -/
theorem exec_resultFlagByPolicy {i : Instr} {s : State} {x : RegNo} {result flag : Byte} {r f : Nat} (notF : x ≠ 15)
    (writes : exec i s = .next (s.setResultFlagByPolicy x result flag)) (hr : result.toNat = r)
    (hf : flag.toNat = f) :
    ∃ t, exec i s = .next t ∧ (t.reg x).toNat = r ∧ (t.reg 15).toNat = f ∧
      UnchangedExcept [.reg x, .reg 15] s t := by
  rw [setResultFlagByPolicy_of_ne s notF] at writes
  obtain ⟨t, goesOn, value, rest⟩ := exec_resultFlag writes hr hf
  exact ⟨t, goesOn, value notF, rest⟩

/-- Settles O37: the carry is computed from the operands before either write, and is the write that lasts. -/
theorem addRegistersSetsTheCarryLast : Obligations.AddRegistersSetsTheCarryLast := fun x y s =>
  exec_resultFlag (exec_addVy x y s) (BitVec.toNat_add _ _) (carryFlag_toNat _ _)

/-- Settles O38: the two differ only in which operand is the minuend, of the difference and of the flag. -/
theorem subtractionsWrapAndFlagNoBorrow : Obligations.SubtractionsWrapAndFlagNoBorrow := fun x y s notF =>
  ⟨exec_resultFlagByPolicy notF (exec_subVy x y s) (byte_sub_toNat _ _) (noBorrowFlag_toNat _ _),
    exec_resultFlagByPolicy notF (exec_subnVy x y s) (byte_sub_toNat _ _) (noBorrowFlag_toNat _ _)⟩

/-- Settles O39: a shift by one halves or doubles, and the bit it drops is the remainder by 2 or the quotient by 128
of the value before the shift. -/
theorem shiftsMoveByOneAndKeepTheBitShiftedOut : Obligations.ShiftsMoveByOneAndKeepTheBitShiftedOut :=
  fun x s notF =>
  ⟨exec_resultFlagByPolicy notF (exec_shr x s) (byte_shiftRight_one_toNat _) (shiftRightFlag_toNat _),
    exec_resultFlagByPolicy notF (exec_shl x s) (byte_shiftLeft_one_toNat _) (shiftLeftFlag_toNat _)⟩

end Sys2Proof.Machine
end

section
/-! PROOFS. Index and memory instructions (42_index_memory.md R140 to R147). -/

namespace Sys2Proof.Machine

theorem exec_ldI (nnn : Imm12) (s : State) : exec (.ldI nnn) s = .next (s.setIndex (zext16 nnn)) := rfl

/-- Settles O42: the one write of `index` stores the immediate, whose zero extension keeps its value. -/
theorem setIndexLoadsTheAddress : Obligations.SetIndexLoadsTheAddress := fun nnn s =>
  ⟨_, exec_ldI nnn s, zext16_toNat nnn, unchanged_setIndex s _⟩

end Sys2Proof.Machine
end

section
/-! PROOFS. Display (43_display.md R150). -/

namespace Sys2Proof.Machine

theorem exec_cls (s : State) : exec .cls s = .next (s.setVideo Video.dark) := rfl

/-- Settles O50: the one write of `video` stores the dark framebuffer. -/
theorem clearScreenTurnsEveryPixelOff : Obligations.ClearScreenTurnsEveryPixelOff := by
  intro s
  refine ⟨_, exec_cls s, fun px py => ?off, unchanged_setVideo s _⟩
  case off => rw [setVideo_video, pixel_dark]

end Sys2Proof.Machine
end

section
/-! PROOFS. Wait-for-key and the timers (44_keypad_timers_entropy.md R162 to R165, R168). -/

namespace Sys2Proof.Machine

/-! ## When a cycle blocks -/

theorem pressedKeys_eq_nil (s : State) : s.pressedKeys = [] ↔ ∀ k, s.keyDown k = false := by
  simp only [List.eq_nil_iff_forall_not_mem, mem_pressedKeys, Bool.not_eq_true]

/-- The cycle's test for blocking, in terms of the fetched word and the keys. -/
theorem blocks_iff (s : State) :
    s.blocks = true ↔ (∃ x, decodeWord s.fetchWord = .ok (.ldVxK x)) ∧ ∀ k, s.keyDown k = false := by
  rw [State.blocks, nextInstr_eq, ← pressedKeys_eq_nil]
  split
  · next x waits => simp [waits]
  · next other => exact iff_of_false Bool.false_ne_true fun ⟨⟨x, waits⟩, _⟩ => other x waits

theorem blocks_of_cycleOutcome_blocked {s t : State} (h : cycleOutcome s t = .blocked) : s.blocks = true := by
  unfold cycleOutcome at h
  split at h
  · cases h
  · by_contra notBlocks
    rw [if_neg notBlocks] at h
    cases h

/-- Every cycle that answers `blocked` has met the test: a raised fault or a pending one answers the fault. -/
theorem blocks_of_cycle_blocked {s t : State} (h : cycle s = .next (t, .blocked)) : s.blocks = true := by
  unfold cycle at h
  split at h
  · simp only [Host.Outcome.next.injEq, Prod.mk.injEq] at h
    exact blocks_of_cycleOutcome_blocked h.2
  · cases h
  · cases h

/-! ## What a blocked cycle does -/

theorem exec_ldVxK_of_no_key {s : State} (noKey : ∀ k, s.keyDown k = false) (x : RegNo) :
    exec (.ldVxK x) s = .next (s.setPc (addrBack2 s.pc)) := by
  simp only [exec, execLdVxK, (pressedKeys_eq_nil s).mpr noKey]

/-- The rewind undoes the advance of the fetch, so only the latch of `opcode` remains. -/
theorem fetched_setPc_addrBack2 {s : State} (inMemory : s.pc.toNat < 4096) :
    s.fetched.setPc (addrBack2 s.fetched.pc) = { s with opcode := s.fetchWord } := by
  rw [fetched_pc, addrBack2_addrAdd inMemory]
  rfl

theorem cycle_of_blocks {s : State} (inMemory : s.pc.toNat < 4096) (noFault : s.fault = none)
    (blocks : s.blocks = true) : cycle s = .next ({ s with opcode := s.fetchWord }, .blocked) := by
  obtain ⟨⟨x, waits⟩, noKey⟩ := (blocks_iff s).mp blocks
  have steps : step s = .next { s with opcode := s.fetchWord } := by
    rw [step_of_ok noFault ((nextInstr_eq s).trans waits), exec_ldVxK_of_no_key (s := s.fetched) noKey,
      fetched_setPc_addrBack2 inMemory]
  rw [cycle_of_next steps]
  simp only [cycleOutcome, noFault, blocks, if_true]

/-- Settles O11: a cycle answers `blocked` exactly when the test for it holds, and the state it then leaves is known. -/
theorem onlyWaitForKeyBlocks : Obligations.OnlyWaitForKeyBlocks := by
  intro s t o inv noFault cycles
  have whenBlocks (blocks : s.blocks = true) : t = { s with opcode := s.fetchWord } ∧ o = .blocked := by
    rw [cycle_of_blocks inv.pc_lt noFault blocks] at cycles
    cases cycles
    exact ⟨rfl, rfl⟩
  have testOfBlocked (blocked : o = .blocked) : s.blocks = true := by
    subst blocked
    exact blocks_of_cycle_blocked cycles
  have blocked_iff : o = .blocked ↔ s.blocks = true := ⟨testOfBlocked, fun blocks => (whenBlocks blocks).2⟩
  exact ⟨blocked_iff.trans (blocks_iff s), fun blocked => (whenBlocks (testOfBlocked blocked)).1⟩

/-! ## The timers -/

theorem exec_ldVxDt (x : RegNo) (s : State) : exec (.ldVxDt x) s = .next (s.setReg x s.delayTimer) := rfl

theorem exec_ldDtVx (x : RegNo) (s : State) : exec (.ldDtVx x) s = .next (s.setDelay (s.reg x)) := rfl

theorem exec_ldStVx (x : RegNo) (s : State) : exec (.ldStVx x) s = .next (s.setSound (s.reg x)) := rfl

theorem soundOn_iff (s : State) : s.soundOn = true ↔ s.soundTimer ≠ 0 := bne_iff_ne

/-- Settles O57: each of the three is one write, and `sound_on` is read off the written timer. -/
theorem timerInstructionsMoveTheByte : Obligations.TimerInstructionsMoveTheByte := fun x s =>
  ⟨⟨_, exec_ldVxDt x s, setReg_reg_self s x _, unchanged_setReg s x _⟩,
    ⟨_, exec_ldDtVx x s, setDelay_delayTimer s _, unchanged_setDelay s _⟩,
    ⟨_, exec_ldStVx x s, setSound_soundTimer s _, soundOn_iff _, unchanged_setSound s _⟩⟩

end Sys2Proof.Machine
end

section
/-! PROOFS. The decoder and the encoder (30_encoding.md R80 to R94). -/

namespace Sys2Proof

/-! ## Decoding an encoded word -/

/-- The count of an encoded `DRW` is its low nibble. -/
@[simp] theorem fieldN_encodeXYN_ofFin (f : BitVec 4) (x y : RegNo) (n : Fin 16) :
    fieldN (encodeXYN f x y (BitVec.ofFin (w := 4) n)) = n :=
  Fin.ext (fieldN_encodeXYN f x y _)

/-- The family of an encoded word selects the decoder's arm, a low field the row within it, and each operand is read
back from its own field. -/
theorem decodeWord_encode (i : Instr) : decodeWord (encode i) = .ok i := by
  cases i
  case cls | ret => decide
  case jp | call | ldI | jpV0 => simp [encode, decodeWord]
  case seKk | sneKk | ldKk | addKk | rnd => simp [encode, decodeWord]
  case seVy | sneVy | drw => simp [encode, decodeWord]
  case ldVy | orVy | andVy | xorVy | addVy | subVy | shr | subnVy | shl => simp [encode, decodeWord, decodeFamily8]
  case skp | sknp => simp [encode, decodeWord, decodeFamilyE]
  case ldVxDt | ldVxK | ldDtVx | ldStVx | addI | ldF | ldB | storeRegs | loadRegs =>
    simp [encode, decodeWord, decodeFamilyF]

/-- Settles O1: the two bytes join to the encoded word, which decodes to the instruction. -/
theorem decodeOfEncodeIsTheInstruction : Obligations.DecodeOfEncodeIsTheInstruction := by
  intro i rest
  show decode ((encode i).extractLsb' 8 8 :: (encode i).extractLsb' 0 8 :: rest) = .ok (i, rest)
  rw [decode_cons_cons, bigEndian_split, decodeWord_encode]
  rfl

/-- Settles O5: each word is decoded by evaluation. -/
theorem wordsWrittenOutDecode : Obligations.WordsWrittenOutDecode := by
  refine ⟨?cls, ?ldKk, ?addVy, ?jp, ?drw, ?seVy, ?sknp, ?loadRegs, ?jpV0⟩ <;> decide

/-! ## Encoding the fields of a word -/

theorem encodeA_fields (w : Word) : encodeA (fieldFam w) (fieldNnn w) = w := by
  apply BitVec.eq_of_getLsbD_eq
  intro i hi
  simp only [encodeA, fieldFam, fieldNnn, BitVec.getLsbD_append, BitVec.getLsbD_extractLsb']
  interval_cases i <;> simp

theorem encodeXK_fields (w : Word) : encodeXK (fieldFam w) (fieldX w) (fieldKk w) = w := by
  apply BitVec.eq_of_getLsbD_eq
  intro i hi
  show (w.extractLsb' 12 4 ++ w.extractLsb' 8 4 ++ w.extractLsb' 0 8).getLsbD i = w.getLsbD i
  simp only [BitVec.getLsbD_append, BitVec.getLsbD_extractLsb']
  interval_cases i <;> simp

theorem encodeXYN_fields (w : Word) :
    encodeXYN (fieldFam w) (fieldX w) (fieldY w) (BitVec.ofFin (w := 4) (fieldN w)) = w := by
  apply BitVec.eq_of_getLsbD_eq
  intro i hi
  show (w.extractLsb' 12 4 ++ w.extractLsb' 8 4 ++ w.extractLsb' 4 4 ++ w.extractLsb' 0 4).getLsbD i = w.getLsbD i
  simp only [BitVec.getLsbD_append, BitVec.getLsbD_extractLsb']
  interval_cases i <;> simp

theorem encodeA_of_fam {w : Word} {f : BitVec 4} (fam : (fieldFam w).toNat = f.toNat) :
    encodeA f (fieldNnn w) = w := by
  rw [← BitVec.eq_of_toNat_eq fam, encodeA_fields]

theorem encodeXK_of_fam {w : Word} {f : BitVec 4} (fam : (fieldFam w).toNat = f.toNat) :
    encodeXK f (fieldX w) (fieldKk w) = w := by
  rw [← BitVec.eq_of_toNat_eq fam, encodeXK_fields]

theorem encodeXK_of_fam_kk {w : Word} {f : BitVec 4} {k : Byte} (fam : (fieldFam w).toNat = f.toNat)
    (low : (fieldKk w).toNat = k.toNat) : encodeXK f (fieldX w) k = w := by
  rw [← BitVec.eq_of_toNat_eq low, encodeXK_of_fam fam]

theorem encodeXYN_of_fam {w : Word} {f : BitVec 4} (fam : (fieldFam w).toNat = f.toNat) :
    encodeXYN f (fieldX w) (fieldY w) (BitVec.ofFin (w := 4) (fieldN w)) = w := by
  rw [← BitVec.eq_of_toNat_eq fam, encodeXYN_fields]

theorem encodeXYN_of_fam_n {w : Word} {f n : BitVec 4} (fam : (fieldFam w).toNat = f.toNat)
    (low : (fieldN w).val = n.toNat) : encodeXYN f (fieldX w) (fieldY w) n = w := by
  have nibble : n = BitVec.ofFin (w := 4) (fieldN w) := BitVec.eq_of_toNat_eq low.symm
  rw [nibble, encodeXYN_of_fam fam]

theorem encodeXYN_and_clear_n (f : BitVec 4) (x y : RegNo) (n : BitVec 4) :
    encodeXYN f x y n &&& 0xFFF0 = encodeXYN f x y 0 := by
  apply BitVec.eq_of_getLsbD_eq
  intro i hi
  simp only [encodeXYN, BitVec.getLsbD_and, BitVec.getLsbD_append]
  interval_cases i <;> simp

theorem encodeXYN_and_clear_y (f : BitVec 4) (x y : RegNo) (n : BitVec 4) :
    encodeXYN f x y n &&& 0xFF0F = encodeXYN f x 0 n := by
  apply BitVec.eq_of_getLsbD_eq
  intro i hi
  simp only [encodeXYN, BitVec.getLsbD_and, BitVec.getLsbD_append]
  interval_cases i <;> simp

/-- The word without the bits that the decoder does not examine for an instruction (30_encoding.md R88). -/
def clearUnexamined (i : Instr) (w : Word) : Word :=
  match i with
  | .seVy _ _ | .sneVy _ _ => w &&& 0xFFF0
  | .shr _ | .shl _ => w &&& 0xFF0F
  | _ => w

theorem encode_of_decodeFamily0 {w : Word} {i : Instr} (fam : (fieldFam w).toNat = 0x0)
    (decodes : decodeFamily0 w = .ok i) : encode i = clearUnexamined i w := by
  unfold decodeFamily0 at decodes
  split at decodes
  · next low =>
    cases decodes
    rw [← encodeA_of_fam (f := 0) fam, BitVec.eq_of_toNat_eq (y := 0x0E0) low]
    rfl
  · next low =>
    cases decodes
    rw [← encodeA_of_fam (f := 0) fam, BitVec.eq_of_toNat_eq (y := 0x0EE) low]
    rfl
  · cases decodes

theorem encode_of_decodeFamily8 {w : Word} {i : Instr} (fam : (fieldFam w).toNat = 0x8)
    (decodes : decodeFamily8 w = .ok i) : encode i = clearUnexamined i w := by
  have whole {n : BitVec 4} (low : (fieldN w).val = n.toNat) : encodeXYN 0x8 (fieldX w) (fieldY w) n = w :=
    encodeXYN_of_fam_n fam low
  have shift {n : BitVec 4} (low : (fieldN w).val = n.toNat) : encodeXYN 0x8 (fieldX w) 0 n = w &&& 0xFF0F := by
    rw [← encodeXYN_and_clear_y, whole low]
  unfold decodeFamily8 at decodes
  split at decodes <;> cases decodes
  case h_7 low | h_9 low => exact shift low
  all_goals exact whole ‹_›

theorem encode_of_decodeFamilyE {w : Word} {i : Instr} (fam : (fieldFam w).toNat = 0xE)
    (decodes : decodeFamilyE w = .ok i) : encode i = clearUnexamined i w := by
  unfold decodeFamilyE at decodes
  split at decodes <;> cases decodes <;> exact encodeXK_of_fam_kk fam ‹_›

theorem encode_of_decodeFamilyF {w : Word} {i : Instr} (fam : (fieldFam w).toNat = 0xF)
    (decodes : decodeFamilyF w = .ok i) : encode i = clearUnexamined i w := by
  unfold decodeFamilyF at decodes
  split at decodes <;> cases decodes <;> exact encodeXK_of_fam_kk fam ‹_›

/-- Encoding a decoded word gives it back without its unexamined bits. -/
theorem encode_of_decodeWord {w : Word} {i : Instr} (decodes : decodeWord w = .ok i) :
    encode i = clearUnexamined i w := by
  have compare {f : BitVec 4} (fam : (fieldFam w).toNat = f.toNat) :
      encodeXYN f (fieldX w) (fieldY w) 0 = w &&& 0xFFF0 := by
    rw [← encodeXYN_and_clear_n, encodeXYN_of_fam fam]
  unfold decodeWord at decodes
  split at decodes
  case h_1 fam => exact encode_of_decodeFamily0 fam decodes
  case h_9 fam => exact encode_of_decodeFamily8 fam decodes
  case h_15 fam => exact encode_of_decodeFamilyE fam decodes
  case h_16 fam => exact encode_of_decodeFamilyF fam decodes
  case h_2 fam | h_3 fam | h_11 fam | h_12 fam => cases decodes; exact encodeA_of_fam fam
  case h_4 fam | h_5 fam | h_7 fam | h_8 fam | h_13 fam => cases decodes; exact encodeXK_of_fam fam
  case h_6 fam | h_10 fam => cases decodes; exact compare fam
  case h_14 fam => cases decodes; exact encodeXYN_of_fam fam
  case h_17 => cases decodes

/-- Settles O2: the family, the low field and the operands together make up the word, but for the bits cleared. -/
theorem encodeOfDecodeClearsOnlyUnexaminedBits : Obligations.EncodeOfDecodeClearsOnlyUnexaminedBits := by
  intro w i decodes
  rw [encode_of_decodeWord decodes]
  cases i <;> rfl

/-! ## The rows of the opcode map -/

/-- The map in the order of the constructors, one sample instruction a row. -/
theorem opcodeTable_eq_map : opcodeTable =
    ([.cls, .ret, .jp 0, .call 0, .seKk 0 0, .sneKk 0 0, .seVy 0 0, .ldKk 0 0, .addKk 0 0, .ldVy 0 0, .orVy 0 0,
      .andVy 0 0, .xorVy 0 0, .addVy 0 0, .subVy 0 0, .shr 0, .subnVy 0 0, .shl 0, .sneVy 0 0, .ldI 0, .jpV0 0,
      .rnd 0 0, .drw 0 0 0, .skp 0, .sknp 0, .ldVxDt 0, .ldVxK 0, .ldDtVx 0, .ldStVx 0, .addI 0, .ldF 0, .ldB 0,
      .storeRegs 0, .loadRegs 0] : List Instr).map Instr.row := rfl

theorem exists_row_of_mem {r : OpcodeRow} (h : r ∈ opcodeTable) : ∃ i : Instr, i.row = r := by
  rw [opcodeTable_eq_map] at h
  obtain ⟨i, _, row⟩ := List.mem_map.mp h
  exact ⟨i, row⟩

/-- An encoded instruction matches its own row. -/
theorem encode_and_mask (i : Instr) : encode i &&& i.row.mask = i.row.pattern := by
  cases i
  case cls | ret => decide
  case jp | call | ldI | jpV0 => exact encodeA_mask _ _
  case seKk | sneKk | ldKk | addKk | rnd => exact encodeXK_mask _ _ _
  case seVy | sneVy | drw => exact encodeXYN_mask _ _ _ _
  case ldVy | orVy | andVy | xorVy | addVy | subVy | shr | subnVy | shl => exact encodeXYN_mask_low _ _ _ _
  case skp | sknp | ldVxDt | ldVxK | ldDtVx | ldStVx | addI | ldF | ldB | storeRegs | loadRegs =>
    exact encodeXK_mask_low _ _ _

/-- The mask of a row examines no unexamined bit. -/
theorem clearUnexamined_and_mask (i : Instr) (w : Word) : clearUnexamined i w &&& i.row.mask = w &&& i.row.mask := by
  cases i <;> simp only [clearUnexamined, Instr.row]
  case seVy | sneVy | shr | shl => rw [BitVec.and_assoc]; rfl

theorem and_mask_of_decodeWord {w : Word} {i : Instr} (decodes : decodeWord w = .ok i) :
    w &&& i.row.mask = i.row.pattern := by
  rw [← clearUnexamined_and_mask, ← encode_of_decodeWord decodes, encode_and_mask]

/-! ## What a match says of the fields -/

/-- A mask that keeps a field whole hands its value on to the pattern. -/
theorem fieldFam_of_match {w m p : Word} (h : w &&& m = p) (whole : fieldFam m = BitVec.allOnes 4) :
    fieldFam w = fieldFam p := by
  rw [← h, fieldFam, fieldFam, BitVec.extractLsb'_and, show m.extractLsb' 12 4 = _ from whole, BitVec.and_allOnes]

theorem fieldKk_of_match {w m p : Word} (h : w &&& m = p) (whole : fieldKk m = BitVec.allOnes 8) :
    fieldKk w = fieldKk p := by
  rw [← h, fieldKk, fieldKk, BitVec.extractLsb'_and, show m.extractLsb' 0 8 = _ from whole, BitVec.and_allOnes]

theorem fieldN_of_match {w m p : Word} (h : w &&& m = p) (whole : m.extractLsb' 0 4 = BitVec.allOnes 4) :
    fieldN w = fieldN p := by
  have low : w.extractLsb' 0 4 = p.extractLsb' 0 4 := by
    rw [← h, BitVec.extractLsb'_and, whole, BitVec.and_allOnes]
  exact Fin.ext (congrArg BitVec.toNat low)

theorem fieldNnn_of_match {w m p : Word} (h : w &&& m = p) (whole : fieldNnn m = BitVec.allOnes 12) :
    fieldNnn w = fieldNnn p := by
  rw [← h, fieldNnn, fieldNnn, BitVec.extractLsb'_and, show m.extractLsb' 0 12 = _ from whole, BitVec.and_allOnes]

/-- A word that matches the row of an instruction decodes to an instruction of that row. -/
theorem decodeWord_row_of_match {w : Word} (i : Instr) (h : w &&& i.row.mask = i.row.pattern) :
    (decodeWord w).map Instr.row = .ok i.row := by
  have fam : fieldFam w = fieldFam i.row.pattern := fieldFam_of_match h (by cases i <;> simp only [Instr.row] <;> rfl)
  cases i <;> simp only [Instr.row] at h fam ⊢
  case cls | ret =>
    have low := fieldNnn_of_match h rfl
    simp only [decodeWord, fam, decodeFamily0, low]; rfl
  case ldVy | orVy | andVy | xorVy | addVy | subVy | shr | subnVy | shl =>
    have low := fieldN_of_match h rfl
    simp only [decodeWord, fam, decodeFamily8, low]; rfl
  case skp | sknp =>
    have low := fieldKk_of_match h rfl
    simp only [decodeWord, fam, decodeFamilyE, low]; rfl
  case ldVxDt | ldVxK | ldDtVx | ldStVx | addI | ldF | ldB | storeRegs | loadRegs =>
    have low := fieldKk_of_match h rfl
    simp only [decodeWord, fam, decodeFamilyF, low]; rfl
  all_goals simp only [decodeWord, fam]; rfl

theorem exists_decodeWord_of_match {w : Word} (i : Instr) (h : w &&& i.row.mask = i.row.pattern) :
    ∃ j, decodeWord w = .ok j ∧ j.row = i.row := by
  have row := decodeWord_row_of_match i h
  cases decodes : decodeWord w with
  | ok j =>
    rw [decodes] at row
    exact ⟨j, rfl, Except.ok.inj row⟩
  | error e =>
    rw [decodes] at row
    cases row

/-- Settles O3: a match fixes the fields that the decoder resolves the row by, and a decoded word has the masked bits of
its encoding. -/
theorem wordSelectsExactlyItsRow : Obligations.WordSelectsExactlyItsRow := by
  intro w r hr
  constructor
  · intro h
    obtain ⟨i, rfl⟩ := exists_row_of_mem hr
    exact exists_decodeWord_of_match i h
  · rintro ⟨i, decodes, rfl⟩
    exact and_mask_of_decodeWord decodes

/-! ## The unknown opcodes -/

theorem fieldFam_toNat (w : Word) : (fieldFam w).toNat = w.toNat / 4096 := by
  have := w.isLt
  rw [fieldFam, BitVec.extractLsb'_toNat, Nat.shiftRight_eq_div_pow]
  omega

theorem fieldN_val (w : Word) : (fieldN w).val = w.toNat % 16 := by
  show (w.extractLsb' 0 4).toNat = _
  rw [BitVec.extractLsb'_toNat, Nat.shiftRight_zero]

theorem fieldKk_toNat (w : Word) : (fieldKk w).toNat = w.toNat % 256 := by
  rw [fieldKk, BitVec.extractLsb'_toNat, Nat.shiftRight_zero]

theorem fieldNnn_toNat (w : Word) : (fieldNnn w).toNat = w.toNat % 4096 := by
  rw [fieldNnn, BitVec.extractLsb'_toNat, Nat.shiftRight_zero]

theorem decodeFamily0_unknown_iff (w : Word) : decodeFamily0 w = .error (.unknownOpcode w) ↔
    (fieldNnn w).toNat ∉ [0x0E0, 0x0EE] := by
  unfold decodeFamily0
  split <;> simp_all

theorem decodeFamily8_unknown_iff (w : Word) : decodeFamily8 w = .error (.unknownOpcode w) ↔
    (fieldN w).val ∈ [0x8, 0x9, 0xA, 0xB, 0xC, 0xD, 0xF] := by
  generalize hn : fieldN w = n
  unfold decodeFamily8
  rw [hn]
  fin_cases n <;> simp

theorem decodeFamilyE_unknown_iff (w : Word) : decodeFamilyE w = .error (.unknownOpcode w) ↔
    (fieldKk w).toNat ∉ [0x9E, 0xA1] := by
  unfold decodeFamilyE
  split <;> simp_all

theorem decodeFamilyF_unknown_iff (w : Word) : decodeFamilyF w = .error (.unknownOpcode w) ↔
    (fieldKk w).toNat ∉ [0x07, 0x0A, 0x15, 0x18, 0x1E, 0x29, 0x33, 0x55, 0x65] := by
  unfold decodeFamilyF
  split <;> simp_all

/-- Only the four overloaded families hold unknown opcodes. -/
theorem decodeWord_unknown_iff (w : Word) : decodeWord w = .error (.unknownOpcode w) ↔
    ((fieldFam w).toNat = 0x0 ∧ decodeFamily0 w = .error (.unknownOpcode w)) ∨
    ((fieldFam w).toNat = 0x8 ∧ decodeFamily8 w = .error (.unknownOpcode w)) ∨
    ((fieldFam w).toNat = 0xE ∧ decodeFamilyE w = .error (.unknownOpcode w)) ∨
    ((fieldFam w).toNat = 0xF ∧ decodeFamilyF w = .error (.unknownOpcode w)) := by
  have := (fieldFam w).isLt
  unfold decodeWord
  generalize (fieldFam w).toNat = f at *
  interval_cases f <;> simp

/-- Settles O4: the four overloaded families give the four clauses, and the only error of a word names it. -/
theorem unknownOpcodesAreExactlyTheListedSet : Obligations.UnknownOpcodesAreExactlyTheListedSet := by
  intro w
  constructor
  · rw [decodeWord_unknown_iff, decodeFamily0_unknown_iff, decodeFamily8_unknown_iff, decodeFamilyE_unknown_iff,
      decodeFamilyF_unknown_iff, fieldFam_toNat, fieldN_val, fieldKk_toNat, fieldNnn_toNat]
    refine or_congr_left (and_congr_right fun fam => ?_)
    have low : w.toNat % 4096 = w.toNat := by omega
    rw [low]
    simp [← BitVec.toNat_inj]
  · cases decodes : decodeWord w with
    | ok i => exact .inl ⟨i, rfl⟩
    | error e => exact .inr (by rw [decodeWord_error decodes])

end Sys2Proof
end

section
/-! PROOFS. Who writes what (10_state.md R22 to R33). -/

namespace Sys2Proof.Machine

/-! ## The writers of each part of the state -/

/-- Whether an instruction may write a part of the state, run in a given state. Of `pc` and of the count of free
choices nothing is said, and `opcode` is the fetch's own. -/
def Part.writtenBy (p : Part) (i : Instr) (s : State) : Prop :=
  match p with
  | .reg r => Instr.hasDest i r ∨ (r = 15 ∧ Instr.writesFlag i s.config)
  | .index => (∃ nnn, i = .ldI nnn) ∨ (∃ x, i = .addI x) ∨ (∃ x, i = .ldF x) ∨
      (s.config.loadStoreIncI = true ∧ ∃ x, i = .storeRegs x ∨ i = .loadRegs x)
  | .sp | .fault => (∃ nnn, i = .call nnn) ∨ i = .ret
  | .slot k => (∃ nnn, i = .call nnn) ∧ k.val = s.sp.val
  | .delayTimer => ∃ x, i = .ldDtVx x
  | .soundTimer => ∃ x, i = .ldStVx x
  | .entropy => ∃ x kk, i = .rnd x kk
  | .video => i = .cls ∨ ∃ x y n, i = .drw x y n
  | .byte a => (∃ x, i = .ldB x ∧ ∃ j < 3, a = memAddr s.index j) ∨
      (∃ x, i = .storeRegs x ∧ ∃ j ≤ x.val, a = memAddr s.index j)
  | .keypad | .config | .opcode => False
  | .pc | .freeDraws => True

/-- The upper bound of Laws/Exec.lean holds writers only. -/
theorem touches_writtenBy (i : Instr) (s : State) : ∀ p ∈ touches i s, p.writtenBy i s := by
  cases i
  case call =>
    simp only [touches]
    split <;> simp [Part.writtenBy]
  case ldVxK =>
    simp only [touches]
    split <;> simp [Part.writtenBy, Instr.hasDest]
  case addI =>
    simp only [touches]
    split <;> simp_all [Part.writtenBy, Instr.writesFlag]
  case ldB =>
    have byteAt (j : Nat) (hj : j < 3) : ∃ k < 3, memAddr s.index j = memAddr s.index k := ⟨j, hj, rfl⟩
    simp [touches, Part.writtenBy, byteAt]
  case storeRegs x =>
    have byteAt : ∀ r ≤ x, ∃ j ≤ x.val, memAddr s.index r.val = memAddr s.index j :=
      fun r hr => ⟨r.val, hr, rfl⟩
    simp only [touches]
    split <;> simpa [*, Part.writtenBy, mem_regsUpTo] using byteAt
  case loadRegs =>
    simp only [touches]
    split <;> simp_all [Part.writtenBy, Instr.hasDest, mem_regsUpTo]
  all_goals simp [touches, Part.writtenBy, Instr.hasDest, Instr.writesFlag]

/-- The fetch moves nothing that decides who writes what. -/
theorem writtenBy_fetched (p : Part) (i : Instr) (s : State) : p.writtenBy i s.fetched = p.writtenBy i s := by
  cases p <;> rfl

/-! ## A part that changed was written -/

/-- A part of the state is the same in `t` as in `s`. -/
def Part.Same (p : Part) (s t : State) : Prop :=
  match p with
  | .reg x => t.reg x = s.reg x
  | .pc => t.pc = s.pc
  | .index => t.index = s.index
  | .sp => t.sp = s.sp
  | .slot k => t.stack[k] = s.stack[k]
  | .delayTimer => t.delayTimer = s.delayTimer
  | .soundTimer => t.soundTimer = s.soundTimer
  | .keypad => t.keypad = s.keypad
  | .video => t.video = s.video
  | .opcode => t.opcode = s.opcode
  | .entropy => t.entropy = s.entropy
  | .fault => t.fault = s.fault
  | .config => t.config = s.config
  | .freeDraws => t.freeDraws = s.freeDraws
  | .byte a => t.byteAt a = s.byteAt a

theorem unchangedExcept_iff_same {ps : List Part} {s t : State} :
    UnchangedExcept ps s t ↔ ∀ p, p ∉ ps → p.Same s t := by
  constructor
  · intro frame p h
    exact match p with
    | .reg x => frame.reg x h
    | .slot k => frame.slot k h
    | .byte a => frame.byte a h
    | .pc => frame.pc h
    | .index => frame.index h
    | .sp => frame.sp h
    | .delayTimer => frame.delayTimer h
    | .soundTimer => frame.soundTimer h
    | .keypad => frame.keypad h
    | .video => frame.video h
    | .opcode => frame.opcode h
    | .entropy => frame.entropy h
    | .fault => frame.fault h
    | .config => frame.config h
    | .freeDraws => frame.freeDraws h
  · exact fun same => ⟨fun x => same (.reg x), same .pc, same .index, same .sp, fun k => same (.slot k),
      same .delayTimer, same .soundTimer, same .keypad, same .video, same .opcode, same .entropy, same .fault,
      same .config, same .freeDraws, fun a => same (.byte a)⟩

theorem UnchangedExcept.same {ps : List Part} {s t : State} (frame : UnchangedExcept ps s t) {p : Part}
    (h : p ∉ ps) : p.Same s t :=
  unchangedExcept_iff_same.mp frame p h

/-- A part that came back to its value may be left out of a frame. -/
theorem UnchangedExcept.of_cons {p : Part} {ps : List Part} {s t : State} (frame : UnchangedExcept (p :: ps) s t)
    (restored : p.Same s t) : UnchangedExcept ps s t := by
  refine unchangedExcept_iff_same.mpr fun q hq => ?_
  by_cases e : q = p
  · exact e ▸ restored
  · exact frame.same fun mem => (List.mem_cons.mp mem).elim e hq

theorem exec_same {i : Instr} {s t : State} {p : Part} (runs : exec i s = .next t) (unwritten : ¬ p.writtenBy i s) :
    p.Same s t :=
  (exec_touches runs).same fun h => unwritten (touches_writtenBy i s p h)

/-- A step that goes on either runs the handler of the decoded instruction after the fetch, or raises `UnknownOpcode`
after the fetch. -/
theorem step_inversion {s t : State} (h : step s = .next t) :
    s.fault = none ∧ ((∃ i, decodeWord s.fetchWord = .ok i ∧ exec i s.fetched = .next t) ∨
      ∃ e, decodeWord s.fetchWord = .error e ∧ t = raise .unknownOpcode s.fetched) := by
  simpa only [nextInstr_eq] using step_cases h

theorem step_of_unknown {s : State} {e : DecodeError} (noFault : s.fault = none)
    (unknown : decodeWord s.fetchWord = .error e) : step s = .next (raise .unknownOpcode s.fetched) :=
  step_of_error noFault ((nextInstr_eq s).trans unknown)

theorem step_of_decodes {s : State} {i : Instr} (noFault : s.fault = none) (decodes : decodeWord s.fetchWord = .ok i) :
    step s = exec i s.fetched :=
  step_of_ok noFault ((nextInstr_eq s).trans decodes)

theorem unchanged_raise_fetched (e : Fault) (s : State) :
    UnchangedExcept [.pc, .opcode, .fault] s (raise e s.fetched) :=
  ((unchanged_fetched s).mono (by simp)).trans ((unchanged_raise e _).mono (by simp))

/-- Beside what the fetch and a raise write, a step changes a part of the state only by an instruction that may. -/
theorem writer_of_changed {s t : State} {p : Part} (h : step s = .next t) (notFetch : p ∉ [.pc, .opcode, .fault])
    (changed : ¬ p.Same s t) : ∃ i, decodeWord s.fetchWord = .ok i ∧ p.writtenBy i s := by
  obtain ⟨_, ⟨i, decodes, runs⟩ | ⟨e, _, rfl⟩⟩ := step_inversion h
  · refine ⟨i, decodes, by_contra fun unwritten => changed ?_⟩
    have frame : UnchangedExcept ([.pc, .opcode] ++ touches i s.fetched) s t :=
      ((unchanged_fetched s).mono (List.subset_append_left _ _)).trans
        ((exec_touches runs).mono (List.subset_append_right _ _))
    refine frame.same fun mem => ?_
    rcases List.mem_append.mp mem with fetch | touched
    · exact notFetch (show p ∈ [.pc, .opcode] ++ [.fault] from List.mem_append_left _ fetch)
    · exact unwritten (writtenBy_fetched p i s ▸ touches_writtenBy i s.fetched p touched)
  · exact absurd ((unchanged_raise_fetched _ s).same notFetch) changed

/-- The contrapositive, for a part that the decoded instruction does not write. -/
theorem step_same {s t : State} {p : Part} (h : step s = .next t) (notFetch : p ∉ [.pc, .opcode, .fault])
    (unwritten : ∀ i, decodeWord s.fetchWord = .ok i → ¬ p.writtenBy i s) : p.Same s t :=
  by_contra fun changed =>
    have ⟨i, decodes, written⟩ := writer_of_changed h notFetch changed
    unwritten i decodes written

/-! ## The statements over all steps -/

theorem move_loadRom_cases {bytes : List Byte} {s t : State} {r : Reply} (h : move (.loadRom bytes) s = .next (t, r)) :
    t = s.memWriteAll 0x200 0 bytes ∨ t = s := by
  by_cases fits : bytes.length ≤ 3584
  · rw [move_loadRom_of_fits fits] at h
    cases h
    exact .inl rfl
  · rw [move_loadRom_of_too_large (by omega)] at h
    cases h
    exact .inr rfl

/-- No move of the host but a cycle or a reset reaches the framebuffer. -/
theorem move_video {m : Move} {s t : State} {r : Reply} (h : move m s = .next (t, r)) (notCycle : m ≠ .cycle)
    (notReset : ∀ a b c, m ≠ .reset a b c) : t.video = s.video := by
  cases m
  case reset a b c => exact absurd rfl (notReset a b c)
  case cycle => exact absurd rfl notCycle
  case loadRom =>
    obtain rfl | rfl := move_loadRom_cases h
    · exact (unchanged_memWriteAll s _ _ _).video (by simp)
    · rfl
  all_goals
    cases h
    rfl

/-- Settles O17: a step changes the framebuffer by its two writers alone, and the other moves by a reset alone. -/
theorem onlyDrawAndClearChangeTheFramebuffer : Obligations.OnlyDrawAndClearChangeTheFramebuffer := by
  refine ⟨fun s t h notCls notDrw => ?step, fun m s t r => move_video, fun _ _ _ => pixel_dark⟩
  case step =>
    refine step_same (p := .video) h (by simp) fun i decodes written => ?_
    obtain rfl | ⟨x, y, n, rfl⟩ := written
    · exact notCls decodes
    · exact notDrw x y n decodes

theorem entropy_seed_of_exec_rnd {x : RegNo} {kk : Byte} {s t : State} (h : exec (.rnd x kk) s = .next t) :
    t.entropy.seed = s.entropy.seed := by
  cases h
  rfl

theorem step_seed {s t : State} (h : step s = .next t) : t.entropy.seed = s.entropy.seed := by
  by_cases same : t.entropy = s.entropy
  · rw [same]
  · obtain ⟨_, decodes, x, kk, rfl⟩ := writer_of_changed (p := .entropy) h (by simp) same
    rw [step_of_decodes (step_inversion h).1 decodes] at h
    exact (entropy_seed_of_exec_rnd h :)

/-- Settles O18: no instruction writes the first two, and the one that draws keeps the seed. -/
theorem cyclesNeverWriteKeypadOrConfiguration : Obligations.CyclesNeverWriteKeypadOrConfiguration := fun s t h =>
  ⟨step_same (p := .keypad) h (by simp) fun _ _ => id, step_same (p := .config) h (by simp) fun _ _ => id,
    step_seed h⟩

/-- Settles O19: a byte that changed was written by an instruction that may, at an address of its transfer. -/
theorem onlyTheTwoStoresWriteMemory : Obligations.OnlyTheTwoStoresWriteMemory := by
  intro s t a h changed
  obtain ⟨_, decodes, ⟨x, rfl, there⟩ | ⟨x, rfl, there⟩⟩ := writer_of_changed (p := .byte a) h (by simp) changed
  · exact .inl ⟨x, decodes, there⟩
  · exact .inr ⟨x, decodes, there⟩

/-- Settles O20: `sp` and the slots have these two writers, and a call writes the slot at `sp`, which is not live. -/
theorem onlyCallAndReturnReachTheStack : Obligations.OnlyCallAndReturnReachTheStack := by
  intro s t h
  refine ⟨fun notCall notRet => ⟨?sp, ?stack⟩, fun k live => ?slot⟩
  case sp =>
    refine step_same (p := .sp) h (by simp) fun i decodes written => ?_
    obtain ⟨nnn, rfl⟩ | rfl := written
    · exact notCall nnn decodes
    · exact notRet decodes
  case stack =>
    refine Vector.ext fun k hk => step_same (p := .slot ⟨k, hk⟩) h (by simp) fun i decodes written => ?_
    obtain ⟨⟨nnn, rfl⟩, _⟩ := written
    exact notCall nnn decodes
  case slot =>
    refine step_same (p := .slot k) h (by simp) fun i _ written => ?_
    have := written.2
    omega

/-- Settles O21: each of the four parts, once changed, names its writers. -/
theorem timersEntropyAndIndexHaveTheirOwnWriters : Obligations.TimersEntropyAndIndexHaveTheirOwnWriters := by
  intro s t h
  refine ⟨fun changed => ?delay, fun changed => ?sound, fun changed => ?entropy, fun changed => ?index⟩
  case delay =>
    obtain ⟨_, decodes, x, rfl⟩ := writer_of_changed (p := .delayTimer) h (by simp) changed
    exact ⟨x, decodes⟩
  case sound =>
    obtain ⟨_, decodes, x, rfl⟩ := writer_of_changed (p := .soundTimer) h (by simp) changed
    exact ⟨x, decodes⟩
  case entropy =>
    obtain ⟨_, decodes, x, kk, rfl⟩ := writer_of_changed (p := .entropy) h (by simp) changed
    exact ⟨x, kk, decodes⟩
  case index =>
    obtain ⟨i, decodes, written⟩ := writer_of_changed (p := .index) h (by simp) changed
    simpa only [decodes, Except.ok.injEq, Part.writtenBy] using written

/-- Settles O23: a register that the instruction does not write keeps its value. -/
theorem registersChangeOnlyAsDestinationOrFlag : Obligations.RegistersChangeOnlyAsDestinationOrFlag :=
  fun _ _ _ r runs notDest notFlag => exec_same (p := .reg r) runs fun written => written.elim notDest notFlag

end Sys2Proof.Machine
end

section
/-! PROOFS. The invariant between two cycles (10_state.md R25, R40). -/

namespace Sys2Proof.Machine

/-! ## What the shared operations keep -/

section
variable {s : State} (inv : s.Inv)
include inv

theorem State.Inv.fetched : s.fetched.Inv where
  pc_lt := by
    rw [fetched_pc, addrAdd_toNat]
    exact Nat.mod_lt _ (by decide)
  index_lt := inv.index_lt
  stack_lt := inv.stack_lt
  mem_wf := inv.mem_wf
  config_wf := inv.config_wf

theorem State.Inv.setPc {a : Word} (ha : a.toNat < 4096) : (s.setPc a).Inv where
  pc_lt := ha
  index_lt := inv.index_lt
  stack_lt := inv.stack_lt
  mem_wf := inv.mem_wf
  config_wf := inv.config_wf

theorem State.Inv.setIndex {a : Word} (ha : a.toNat < 4096) : (s.setIndex a).Inv where
  pc_lt := inv.pc_lt
  index_lt := ha
  stack_lt := inv.stack_lt
  mem_wf := inv.mem_wf
  config_wf := inv.config_wf

/-- What a state has in `pc`, `index`, the stack, memory and the configuration decides the invariant. -/
theorem State.Inv.of_eq {t : State} (pc : t.pc = s.pc) (index : t.index = s.index) (sp : t.sp = s.sp)
    (stack : t.stack = s.stack) (mem : t.mem = s.mem) (config : t.config = s.config) : t.Inv where
  pc_lt := pc ▸ inv.pc_lt
  index_lt := index ▸ inv.index_lt
  stack_lt := by
    rw [sp, stack]
    exact inv.stack_lt
  mem_wf := by
    rw [mem, config]
    exact inv.mem_wf
  config_wf := config ▸ inv.config_wf

theorem State.Inv.setReg (x : RegNo) (b : Byte) : (s.setReg x b).Inv := inv.of_eq rfl rfl rfl rfl rfl rfl
theorem State.Inv.setDelay (b : Byte) : (s.setDelay b).Inv := inv.of_eq rfl rfl rfl rfl rfl rfl
theorem State.Inv.setSound (b : Byte) : (s.setSound b).Inv := inv.of_eq rfl rfl rfl rfl rfl rfl
theorem State.Inv.setVideo (d : Video) : (s.setVideo d).Inv := inv.of_eq rfl rfl rfl rfl rfl rfl
theorem State.Inv.setEntropy (e : Entropy) : (s.setEntropy e).Inv := inv.of_eq rfl rfl rfl rfl rfl rfl
theorem State.Inv.setKey (k : KeyNo) (b : Bool) : (s.setKey k b).Inv := inv.of_eq rfl rfl rfl rfl rfl rfl
theorem State.Inv.freeChoice : s.freeChoice.2.Inv := inv.of_eq rfl rfl rfl rfl rfl rfl
theorem State.Inv.raise (e : Fault) : (raise e s).Inv := inv.of_eq rfl rfl rfl rfl rfl rfl
theorem State.Inv.setResultFlag (x : RegNo) (result flag : Byte) : (s.setResultFlag x result flag).Inv :=
  inv.of_eq rfl rfl rfl rfl rfl rfl

theorem State.Inv.setResultFlagByPolicy (x : RegNo) (result flag : Byte) :
    (s.setResultFlagByPolicy x result flag).Inv := by
  rw [setResultFlagByPolicy_eq]
  exact inv.of_eq rfl rfl rfl rfl rfl rfl

theorem State.Inv.loadEach (base : Word) (rs : List RegNo) : (s.loadEach base rs).Inv := by
  rw [loadEach_eq]
  exact inv.of_eq rfl rfl rfl rfl rfl rfl

theorem State.Inv.setIndex_addrAdd (a : Word) (k : Nat) : (s.setIndex (addrAdd a k)).Inv :=
  inv.setIndex (by rw [addrAdd_toNat]; exact Nat.mod_lt _ (by decide))

theorem State.Inv.setPc_addrAdd (a : Word) (k : Nat) : (s.setPc (addrAdd a k)).Inv :=
  inv.setPc (by rw [addrAdd_toNat]; exact Nat.mod_lt _ (by decide))

theorem State.Inv.skipIf (c : Bool) : (s.skipIf c).Inv := by
  obtain ⟨_, e⟩ | ⟨_, e⟩ := skipIf_cases s c <;> rw [e]
  · exact inv.setPc_addrAdd _ _
  · exact inv

theorem State.Inv.bumpIndex (x : RegNo) : (s.bumpIndex x).Inv := by
  unfold State.bumpIndex
  split
  · exact inv.setIndex_addrAdd _ _
  · exact inv

theorem State.Inv.memWriteAll (base : Word) (i : Nat) (xs : List Byte) : (s.memWriteAll base i xs).Inv := by
  have wf := memWriteAll_wf inv.mem_wf base i xs
  rw [memWriteAll_eq] at wf ⊢
  exact ⟨inv.pc_lt, inv.index_lt, inv.stack_lt, wf, inv.config_wf⟩

theorem State.Inv.reportKey (x : RegNo) {k : KeyNo} {ks : List KeyNo} (pressed : s.pressedKeys = k :: ks) :
    (s.reportKey x k ks).Inv := by
  obtain ⟨_, e⟩ | ⟨_, j, _, e⟩ := reportKey_cases x pressed <;> rw [e]
  · exact inv.setReg _ _
  · exact inv.freeChoice.setReg _ _

/-- The one new live slot holds the pushed address. -/
theorem State.Inv.push {t : State} {a : Word} (ha : a.toNat < 4096) (pushed : s.push a = some t) : t.Inv := by
  obtain ⟨room, rfl⟩ := push_cases pushed
  refine ⟨inv.pc_lt, inv.index_lt, fun k live => ?_, inv.mem_wf, inv.config_wf⟩
  simp only [Fin.getElem_fin, Vector.getElem_set]
  split
  · exact ha
  · exact inv.stack_lt k (by simp only at live; omega)

/-- The popped address was a live slot. -/
theorem State.Inv.pop {t : State} {a : Word} (popped : s.pop = some (a, t)) : t.Inv ∧ a.toNat < 4096 := by
  obtain ⟨nonempty, rfl, rfl⟩ := pop_cases popped
  have := s.sp.isLt
  exact ⟨⟨inv.pc_lt, inv.index_lt, fun k live => inv.stack_lt k (by simp only at live; omega), inv.mem_wf,
    inv.config_wf⟩, inv.stack_lt ⟨s.sp.val - 1, by omega⟩ (by simp only; omega)⟩

/-! ## Every handler, every step -/

theorem State.Inv.exec {i : Instr} {t : State} (runs : exec i s = .next t) : t.Inv := by
  cases i <;> simp only [Machine.exec] at runs
  case ret =>
    unfold execRet at runs
    split at runs <;> cases runs
    case h_1 popped => exact (inv.pop popped).1.setPc (inv.pop popped).2
    case h_2 => exact inv.raise _
  case call =>
    unfold execCall at runs
    split at runs <;> cases runs
    case h_1 pushed => exact (inv.push inv.pc_lt pushed).setPc (zext16_lt _)
    case h_2 => exact inv.raise _
  case ldVxK x =>
    unfold execLdVxK at runs
    split at runs <;> cases runs
    case h_1 pressed => exact inv.reportKey x pressed
    case h_2 => exact inv.setPc (by rw [addrBack2_toNat]; exact Nat.mod_lt _ (by decide))
  case addI =>
    unfold execAddI at runs
    split at runs <;> cases runs
    · exact (inv.setIndex_addrAdd _ _).setReg _ _
    · exact inv.setIndex_addrAdd _ _
  case ldF => obtain ⟨_, rfl⟩ := ifAdmitted_cases runs; exact inv.setIndex (glyphAddr_lt _ _)
  case ldB => obtain ⟨_, rfl⟩ := ifAdmitted_cases runs; exact inv.memWriteAll _ _ _
  case storeRegs => obtain ⟨_, rfl⟩ := ifAdmitted_cases runs; exact (inv.memWriteAll _ _ _).bumpIndex _
  case loadRegs => obtain ⟨_, rfl⟩ := ifAdmitted_cases runs; exact (inv.loadEach _ _).bumpIndex _
  all_goals cases runs
  case cls => exact inv.setVideo _
  case drw => exact (inv.setVideo _).setReg _ _
  case jp => exact inv.setPc (zext16_lt _)
  case jpV0 => exact inv.setPc_addrAdd _ _
  case ldI => exact inv.setIndex (zext16_lt _)
  case seKk | sneKk | seVy | sneVy | skp | sknp => exact inv.skipIf _
  case ldKk | addKk | ldVy | orVy | andVy | xorVy | ldVxDt => exact inv.setReg _ _
  case addVy => exact inv.setResultFlag _ _ _
  case subVy | subnVy | shr | shl => exact inv.setResultFlagByPolicy _ _ _
  case rnd => exact (inv.setEntropy _).setReg _ _
  case ldDtVx => exact inv.setDelay _
  case ldStVx => exact inv.setSound _

theorem State.Inv.step {t : State} (h : step s = .next t) : t.Inv := by
  obtain ⟨_, ⟨i, _, runs⟩ | ⟨e, _, rfl⟩⟩ := step_inversion h
  · exact inv.fetched.exec runs
  · exact inv.fetched.raise _

end

/-- Settles O12: the fetch, every handler and a raise keep the invariant. -/
theorem stepKeepsTheInvariant : Obligations.StepKeepsTheInvariant := fun _ _ inv h => inv.step h

/-! ## Reset and the moves of the host -/

theorem resetWith_inv (seed : Nat) (supplied : List Byte) {c : Config} (wf : c.wellFormed = true) :
    (State.resetWith seed supplied c).Inv where
  pc_lt := show (0x200 : Word).toNat < 4096 by decide
  index_lt := show (0 : Word).toNat < 4096 by decide
  stack_lt k live := absurd live (Nat.not_lt_zero k)
  mem_wf := rfl
  config_wf := wf

/-- Settles O13: the default configuration is well formed. -/
theorem resetMeetsTheInvariant : Obligations.ResetMeetsTheInvariant := resetWith_inv _ _ rfl

/-- A cycle leaves its own state on a fault and the next state of the step otherwise. -/
theorem cycle_cases {s t : State} {o : CycleOutcome} (h : cycle s = .next (t, o)) : step s = .next t ∨ t = s := by
  unfold cycle at h
  split at h
  case h_1 steps => cases h; exact .inl steps
  case h_2 => cases h; exact .inr rfl
  case h_3 => cases h

theorem cycleMove_cases {s t : State} {r : Reply} (h : cycleMove s = .next (t, r)) :
    ∃ o, cycle s = .next (t, o) := by
  unfold cycleMove at h
  split at h
  case h_1 o cycles => cases h; exact ⟨o, cycles⟩
  case h_2 => cases h
  case h_3 => cases h

theorem State.Inv.cycle {s t : State} {o : CycleOutcome} (inv : s.Inv) (h : cycle s = .next (t, o)) : t.Inv := by
  obtain steps | rfl := cycle_cases h
  · exact inv.step steps
  · exact inv

/-- Settles O14: each move is a reset, a run of writes, a write outside the invariant, a cycle or a read. -/
theorem hostMovesKeepTheInvariant : Obligations.HostMovesKeepTheInvariant := by
  intro m s t r inv wf h
  cases m
  case reset => cases h; exact resetWith_inv _ _ wf
  case loadRom =>
    obtain rfl | rfl := move_loadRom_cases h
    · exact inv.memWriteAll _ _ _
    · exact inv
  case setKey => cases h; exact inv.setKey _ _
  case tick => cases h; exact (inv.setDelay _).setSound _
  case cycle =>
    obtain ⟨_, cycles⟩ := cycleMove_cases h
    exact inv.cycle cycles
  case readVideo | readSound | readState => cases h; exact inv

end Sys2Proof.Machine
end

section
/-! PROOFS. Faults and the cycle (60_exceptions.md R180 to R190, 70_reset_and_hazards.md R213). -/

namespace Sys2Proof.Machine

/-! ## An unknown opcode, a faulted core -/

/-- Settles O7: the state of the raise after the fetch, which `cycle` reports as the fault it holds. -/
theorem unknownOpcodeFaultsAfterTheFetch : Obligations.UnknownOpcodeFaultsAfterTheFetch := by
  intro s e noFault unknown
  have steps := step_of_unknown noFault unknown
  refine ⟨_, steps, cycle_of_next steps, rfl, rfl, ?pc, unchanged_raise_fetched _ s⟩
  case pc => rw [raise_pc, fetched_pc, addrAdd_toNat]

/-- Settles O8: the step answers the fault, and the cycle hands it on with the state it had. -/
theorem faultedCoreAnswersItsFault : Obligations.FaultedCoreAnswersItsFault := by
  intro s e faulted
  have steps : stepCycle s = .fault e := step_of_fault faulted
  exact ⟨steps, by rw [cycle, steps]⟩

/-- Settles O9: on a known word the handler goes on, on an unknown one the raise is the next state. -/
theorem unfaultedCoreAlwaysGoesOn : Obligations.UnfaultedCoreAlwaysGoesOn := by
  intro s noFault admits
  cases decodes : decodeWord s.fetchWord with
  | ok i =>
    rw [step_of_decodes noFault decodes]
    exact exec_goes_on i admits
  | error e => exact ⟨_, step_of_unknown noFault decodes⟩

/-! ## The causes of the faults -/

/-- A call raises exactly on a full stack. -/
theorem fault_of_exec_call {nnn : Imm12} {s t : State} (runs : exec (.call nnn) s = .next t) :
    t.fault = if s.sp.val = 16 then some .stackOverflow else s.fault := by
  split
  · next full =>
    rw [exec_call_of_full full] at runs
    cases runs
    rfl
  · next notFull =>
    obtain ⟨u, pushed, _, _, frame⟩ := push_of_room (by omega : s.sp.val < 16) s.pc
    rw [exec_call_of_push pushed] at runs
    cases runs
    exact frame.fault (by simp)

/-- A return raises exactly on an empty stack. -/
theorem fault_of_exec_ret {s t : State} (runs : exec .ret s = .next t) :
    t.fault = if s.sp.val = 0 then some .stackUnderflow else s.fault := by
  split
  · next empty =>
    rw [exec_ret_of_empty empty] at runs
    cases runs
    rfl
  · next notEmpty =>
    obtain ⟨u, popped, _, frame⟩ := pop_of_nonempty (by omega : 0 < s.sp.val)
    rw [exec_ret_of_pop popped] at runs
    cases runs
    exact frame.fault (by simp)

/-- Settles O10: by the decoded instruction: a call, a return, any other, which leaves `fault` alone, or none. -/
theorem eachFaultHasItsOneCause : Obligations.EachFaultHasItsOneCause := by
  intro s t h
  obtain ⟨noFault, ⟨i, decodes, runs⟩ | ⟨e, unknown, rfl⟩⟩ := step_inversion h
  case inr => simp [unknown]
  by_cases isCall : ∃ nnn, i = .call nnn
  · obtain ⟨nnn, rfl⟩ := isCall
    have fault := fault_of_exec_call runs
    rw [fault]
    by_cases full : s.sp.val = 16 <;> simp [full, decodes, noFault]
  by_cases isRet : i = .ret
  · subst isRet
    have fault := fault_of_exec_ret runs
    rw [fault]
    by_cases empty : s.sp.val = 0 <;> simp [empty, decodes, noFault]
  have fault : t.fault = none :=
    (exec_same (p := .fault) runs fun written => written.elim isCall isRet).trans noFault
  simp [fault, decodes, isRet, not_exists.mp isCall]

/-! ## A stopped program -/

theorem unchanged_latch (s : State) (w : Word) : UnchangedExcept [.opcode] s { s with opcode := w } := by
  constructor
  case opcode => exact fun h => absurd List.mem_cons_self h
  all_goals
    intros
    rfl

/-- Settles O26: the jump to itself undoes the advance of the fetch, so only the latch of `opcode` remains. -/
theorem stoppedProgramStaysStopped : Obligations.StoppedProgramStaysStopped := by
  intro s stopped
  obtain ⟨noFault, nnn, decodes, here⟩ := stopped
  have back : s.fetched.setPc (zext16 nnn) = { s with opcode := s.fetchWord } := by
    rw [here]
    rfl
  have steps : step s = .next { s with opcode := s.fetchWord } := by
    rw [step_of_decodes noFault decodes, ← back]
    rfl
  exact ⟨_, steps, ⟨noFault, nnn, decodes, here⟩, rfl, unchanged_latch s _⟩

end Sys2Proof.Machine
end

section
/-! PROOFS. No instruction reads the sound timer (10_state.md R27, 44_keypad_timers_entropy.md R168). -/

namespace Sys2Proof.Machine

/-! ## The shared operations beside a write of the sound timer -/

section
variable (s : State) (b : Byte)

theorem setSound_setResultFlagByPolicy (x : RegNo) (result flag : Byte) :
    (s.setSound b).setResultFlagByPolicy x result flag = (s.setResultFlagByPolicy x result flag).setSound b := by
  unfold State.setResultFlagByPolicy
  rw [setSound_config]
  split
  · rfl
  · split <;> rfl

theorem setSound_skipIf (c : Bool) : (s.setSound b).skipIf c = (s.skipIf c).setSound b := by
  rw [skipIf_eq, skipIf_eq]
  rfl

theorem setSound_memWriteAll (base : Word) (i : Nat) (xs : List Byte) :
    (s.setSound b).memWriteAll base i xs = (s.memWriteAll base i xs).setSound b := by
  induction xs generalizing s i with
  | nil => rfl
  | cons x xs ih => exact ih (s.memWrite base i x) (i + 1)

theorem setSound_loadEach (base : Word) (rs : List RegNo) :
    (s.setSound b).loadEach base rs = (s.loadEach base rs).setSound b := by
  induction rs generalizing s with
  | nil => rfl
  | cons r rs ih => exact ih (s.setReg r (s.memRead base r.val))

theorem setSound_bumpIndex (x : RegNo) : (s.setSound b).bumpIndex x = (s.bumpIndex x).setSound b := by
  rw [bumpIndex_eq, bumpIndex_eq]
  rfl

theorem setSound_reportKey (x : RegNo) (k : KeyNo) (ks : List KeyNo) :
    (s.setSound b).reportKey x k ks = (s.reportKey x k ks).setSound b := by
  unfold State.reportKey
  rw [setSound_config]
  split <;> rfl

theorem setSound_push (a : Word) : (s.setSound b).push a = (s.push a).map (·.setSound b) := by
  by_cases room : s.sp.val < 16
  · rw [State.push, State.push, dif_pos room, dif_pos (show (s.setSound b).sp.val < 16 from room)]
    rfl
  · rw [State.push, State.push, dif_neg room, dif_neg (show ¬(s.setSound b).sp.val < 16 from room)]
    rfl

theorem setSound_pop : (s.setSound b).pop = s.pop.map fun p => (p.1, p.2.setSound b) := by
  by_cases taken : 0 < s.sp.val
  · rw [State.pop, State.pop, dif_pos taken, dif_pos (show 0 < (s.setSound b).sp.val from taken)]
    rfl
  · rw [State.pop, State.pop, dif_neg taken, dif_neg (show ¬0 < (s.setSound b).sp.val from taken)]
    rfl

theorem setSound_ifAdmitted {t u : State} (h : ifAdmitted s t = .next u) :
    ifAdmitted (s.setSound b) (t.setSound b) = .next (u.setSound b) := by
  obtain ⟨admits, rfl⟩ := ifAdmitted_cases h
  rw [ifAdmitted, setSound_config, if_pos admits]

end

/-! ## Handlers and steps -/

/-- Every handler takes the sound timer along, but for the one that overwrites it. -/
theorem exec_setSound {i : Instr} {s t : State} (b : Byte) (runs : exec i s = .next t) :
    exec i (s.setSound b) = .next (t.setSound b) ∨ exec i (s.setSound b) = .next t := by
  cases i
  case ldStVx => exact .inr runs
  all_goals refine .inl ?_; simp only [exec] at runs ⊢
  case ret =>
    unfold execRet at runs ⊢
    rw [setSound_pop]
    split at runs <;> cases runs
    case h_1 popped => rw [popped]; rfl
    case h_2 empty => rw [empty]; rfl
  case call =>
    unfold execCall at runs ⊢
    rw [setSound_pc, setSound_push]
    split at runs <;> cases runs
    case h_1 pushed => rw [pushed]; rfl
    case h_2 full => rw [full]; rfl
  case ldVxK =>
    unfold execLdVxK at runs ⊢
    rw [setSound_pressedKeys]
    split at runs <;> cases runs
    case h_1 => rw [setSound_reportKey]
    case h_2 => rfl
  case addI =>
    unfold execAddI at runs ⊢
    rw [setSound_config]
    cases runs
    split <;> rfl
  case ldF => exact setSound_ifAdmitted s b runs
  case ldB =>
    have moved := setSound_ifAdmitted s b runs
    rwa [← setSound_memWriteAll] at moved
  case storeRegs =>
    have moved := setSound_ifAdmitted s b runs
    rwa [← setSound_bumpIndex, ← setSound_memWriteAll] at moved
  case loadRegs =>
    have moved := setSound_ifAdmitted s b runs
    rwa [← setSound_bumpIndex, ← setSound_loadEach] at moved
  all_goals cases runs
  case seKk | sneKk | seVy | sneVy | skp | sknp => exact congrArg _ (setSound_skipIf s b _)
  case subVy | subnVy | shr | shl => exact congrArg _ (setSound_setResultFlagByPolicy s b _ _ _)
  all_goals rfl

/-- The fetch does not read the sound timer. -/
theorem step_setSound {s t : State} (b : Byte) (h : step s = .next t) :
    step (s.setSound b) = .next (t.setSound b) ∨ step (s.setSound b) = .next t := by
  obtain ⟨noFault, ⟨i, decodes, runs⟩ | ⟨e, unknown, rfl⟩⟩ := step_inversion h
  · rw [step_of_decodes (s := s.setSound b) noFault decodes]
    exact exec_setSound b runs
  · exact .inl (step_of_unknown (s := s.setSound b) noFault unknown)

/-- Settles O22: the other core ends with its own sound timer or with the one just written. -/
theorem noInstructionReadsTheSoundTimer : Obligations.NoInstructionReadsTheSoundTimer := by
  intro s t b h
  obtain moved | overwritten := step_setSound b h
  · exact ⟨_, moved, unchanged_setSound t b⟩
  · exact ⟨_, overwritten, UnchangedExcept.refl _ t⟩

end Sys2Proof.Machine
end

section
/-! PROOFS. The flag (10_state.md R22). -/

namespace Sys2Proof.Machine

/-! ## Every flag is 0 or 1 -/

theorem byte_eq_zero_or_one {b : Byte} (h : b.toNat < 2) : b = 0 ∨ b = 1 := by
  have : b.toNat = 0 ∨ b.toNat = 1 := by omega
  exact this.imp BitVec.eq_of_toNat_eq BitVec.eq_of_toNat_eq

theorem flagByte_eq_zero_or_one (c : Bool) : flagByte c = 0 ∨ flagByte c = 1 := by
  cases c
  · exact .inl rfl
  · exact .inr rfl

theorem shiftRightFlag_eq_zero_or_one (a : Byte) : shiftRightFlag a = 0 ∨ shiftRightFlag a = 1 :=
  byte_eq_zero_or_one (by rw [shiftRightFlag_toNat]; omega)

theorem shiftLeftFlag_eq_zero_or_one (a : Byte) : shiftLeftFlag a = 0 ∨ shiftLeftFlag a = 1 :=
  byte_eq_zero_or_one (by rw [shiftLeftFlag_toNat]; have := a.isLt; omega)

theorem setResultFlag_regF (s : State) (x : RegNo) (result flag : Byte) :
    (s.setResultFlag x result flag).reg 15 = flag := by
  rw [setResultFlag_reg, if_pos rfl]

theorem exec_addI_of_quirk {s : State} (quirk : s.config.quirkAddiVF = true) (x : RegNo) : exec (.addI x) s =
    .next ((s.setIndex (addrAdd s.index (s.reg x).toNat)).setReg regF (indexOverflowFlag s.index (s.reg x))) := by
  simp only [exec, execAddI, quirk, if_true]

theorem exec_addI_of_no_quirk {s : State} (quirk : s.config.quirkAddiVF = false) (x : RegNo) :
    exec (.addI x) s = .next (s.setIndex (addrAdd s.index (s.reg x).toNat)) := by
  simp only [exec, execAddI, quirk, Bool.false_eq_true, if_false]

/-- The last value written to `VF` by a flag writer is its flag. -/
theorem flag_of_exec {i : Instr} {s t : State} (runs : exec i s = .next t) (writes : Instr.writesFlag i s.config)
    (flagWins : s.config.vfDestPolicy = .flagWins) :
    (∃ c, t.reg 15 = flagByte c) ∨ (∃ a, t.reg 15 = shiftRightFlag a) ∨ ∃ a, t.reg 15 = shiftLeftFlag a := by
  cases i <;> simp only [Instr.writesFlag] at writes
  case addVy =>
    cases runs
    exact .inl ⟨_, setResultFlag_regF _ _ _ _⟩
  case subVy | subnVy =>
    cases runs
    rw [setResultFlagByPolicy_of_flagWins flagWins]
    exact .inl ⟨_, setResultFlag_regF _ _ _ _⟩
  case shr =>
    cases runs
    rw [setResultFlagByPolicy_of_flagWins flagWins]
    exact .inr (.inl ⟨_, setResultFlag_regF _ _ _ _⟩)
  case shl =>
    cases runs
    rw [setResultFlagByPolicy_of_flagWins flagWins]
    exact .inr (.inr ⟨_, setResultFlag_regF _ _ _ _⟩)
  case drw =>
    cases runs
    exact .inl ⟨_, setReg_reg_self _ _ _⟩
  case addI x =>
    rw [exec_addI_of_quirk writes] at runs
    cases runs
    exact .inl ⟨_, setReg_reg_self _ _ _⟩

/-- Settles O24: whatever the destination, the flag is the write of `VF` that lasts. -/
theorem flagWritersLeaveVFZeroOrOne : Obligations.FlagWritersLeaveVFZeroOrOne := by
  intro i s t runs writes flagWins
  obtain ⟨c, e⟩ | ⟨a, e⟩ | ⟨a, e⟩ := flag_of_exec runs writes flagWins <;> rw [e]
  · exact flagByte_eq_zero_or_one c
  · exact shiftRightFlag_eq_zero_or_one a
  · exact shiftLeftFlag_eq_zero_or_one a

end Sys2Proof.Machine
end

section
/-! PROOFS. Whole skips, and calls with their returns (40_control_flow.md R100 to R108). -/

namespace Sys2Proof.Machine

/-! ## Skips as whole steps -/

theorem keyIndex_eq {k : KeyNo} {b : Byte} (hk : k.val = b.toNat % 16) : keyIndex b = k := Fin.ext hk.symm

theorem exec_skp {x : RegNo} {s : State} {k : KeyNo} (hk : k.val = (s.reg x).toNat % 16) :
    exec (.skp x) s = .next (s.skipIf (s.keyDown k)) := by
  rw [← keyIndex_eq hk]
  rfl

theorem exec_sknp {x : RegNo} {s : State} {k : KeyNo} (hk : k.val = (s.reg x).toNat % 16) :
    exec (.sknp x) s = .next (s.skipIf (!s.keyDown k)) := by
  rw [← keyIndex_eq hk]
  rfl

/-- Settles O53: both are skips on the key that the byte names modulo 16. -/
theorem keySkipsTestTheKeyModulo16 : Obligations.KeySkipsTestTheKeyModulo16 := fun _ _ _ hk =>
  ⟨exec_skip (exec_skp hk) id id, exec_skip (exec_sknp hk) (congrArg Bool.not) (congrArg Bool.not)⟩

/-- The advance of a skip comes on top of the advance of the fetch. -/
theorem fetched_skipIf_pc_toNat (s : State) (taken : Bool) :
    (s.fetched.skipIf taken).pc.toNat = (s.pc.toNat + if taken then 4 else 2) % 4096 := by
  cases taken
  · rw [skipIf_pc_of_false rfl, fetched_pc, addrAdd_toNat]
    rfl
  · rw [skipIf_pc_toNat_of_true rfl, fetched_pc, addrAdd_toNat]
    simp only [if_true]
    omega

theorem step_of_skip {s : State} {i : Instr} {taken : Bool} (noFault : s.fault = none)
    (decodes : decodeWord s.fetchWord = .ok i) (skips : exec i s.fetched = .next (s.fetched.skipIf taken)) :
    ∃ t, step s = .next t ∧ UnchangedExcept [.pc, .opcode] s t ∧
      t.pc.toNat = (s.pc.toNat + (if taken then 4 else 2)) % 4096 :=
  ⟨_, (step_of_decodes noFault decodes).trans skips,
    (unchanged_fetched s).trans ((unchanged_skipIf _ _).mono (by simp)), fetched_skipIf_pc_toNat s taken⟩

/-- Settles O33: each listed pair is an instruction and the test it skips on. -/
theorem everySkipContinuesTwoOrFourOn : Obligations.EverySkipContinuesTwoOrFourOn := by
  intro s i taken x y kk k noFault decodes hk listed
  refine step_of_skip noFault decodes ?_
  simp only [List.mem_cons, Prod.mk.injEq, List.not_mem_nil, or_false] at listed
  obtain ⟨rfl, rfl⟩ | ⟨rfl, rfl⟩ | ⟨rfl, rfl⟩ | ⟨rfl, rfl⟩ | ⟨rfl, rfl⟩ | ⟨rfl, rfl⟩ := listed
  · exact exec_seKk x kk s.fetched
  · exact exec_sneKk x kk s.fetched
  · exact exec_seVy x y s.fetched
  · exact exec_sneVy x y s.fetched
  · exact exec_skp (s := s.fetched) hk
  · exact exec_sknp (s := s.fetched) hk

/-! ## Nested calls and their returns -/

theorem execAll_append {is : List Instr} (js : List Instr) {s t : State} (h : execAll is s = .next t) :
    execAll (is ++ js) s = execAll js t := by
  induction is generalizing s with
  | nil => cases h; rfl
  | cons i is ih =>
    simp only [List.cons_append, execAll] at h ⊢
    split at h
    · exact ih h
    · cases h
    · cases h

theorem execAll_cons {i : Instr} {is : List Instr} {s t : State} (h : exec i s = .next t) :
    execAll (i :: is) s = execAll is t := by
  rw [execAll, h]

/-- The slots at and above a depth of the stack. -/
def slotsFrom (n : Nat) : List Part := ((List.finRange 16).filter fun k => decide (n ≤ k.val)).map Part.slot

theorem slot_mem_slotsFrom {n : Nat} {k : Fin 16} : Part.slot k ∈ slotsFrom n ↔ n ≤ k.val := by
  simp [slotsFrom]

theorem slotsFrom_subset {m n : Nat} (h : m ≤ n) : slotsFrom n ⊆ slotsFrom m := by
  intro p hp
  obtain ⟨k, hk, rfl⟩ := List.mem_map.mp hp
  have := slot_mem_slotsFrom.mp hp
  exact slot_mem_slotsFrom.mpr (by omega)

/-- The calls and as many returns after them. -/
def callsAndReturns (targets : List Imm12) : List Instr :=
  targets.map Instr.call ++ List.replicate targets.length Instr.ret

theorem callsAndReturns_cons (nnn : Imm12) (targets : List Imm12) :
    callsAndReturns (nnn :: targets) = .call nnn :: (callsAndReturns targets ++ [.ret]) := by
  simp [callsAndReturns, List.replicate_succ']

/-- By induction on the nesting: the inner calls and returns start one slot further up, so they leave the slot of the
outer call alone, and the last return finds the address that the first call pushed. -/
theorem execAll_callsAndReturns (targets : List Imm12) (s : State) (fits : targets.length + s.sp.val ≤ 16) :
    ∃ t, execAll (callsAndReturns targets) s = .next t ∧ t.sp = s.sp ∧ t.pc = s.pc ∧
      UnchangedExcept (slotsFrom s.sp.val) s t := by
  induction targets generalizing s with
  | nil => exact ⟨s, rfl, rfl, rfl, UnchangedExcept.refl _ s⟩
  | cons nnn targets ih =>
    rw [List.length_cons] at fits
    have room : s.sp.val < 16 := by omega
    obtain ⟨c, calls, slot, sp, _, callFrame⟩ := (callPushesTheReturnAddress nnn s).1 room
    obtain ⟨m, runs, spBack, _, innerFrame⟩ := ih c (by omega)
    have msp : m.sp.val = s.sp.val + 1 := by rw [spBack, sp]
    obtain ⟨t, returns, pc, tsp, retFrame⟩ := (returnPopsTheReturnAddress m).1 (by omega)
    have spRestored : t.sp = s.sp := Fin.ext (by omega)
    have pcRestored : t.pc = s.pc := by
      have belowInner : Part.slot ⟨s.sp.val, room⟩ ∉ slotsFrom c.sp.val := by
        rw [slot_mem_slotsFrom, sp]
        exact Nat.not_succ_le_self _
      have kept := innerFrame.slot _ belowInner
      simp only [Fin.getElem_fin] at kept
      simp only [pc, msp, Nat.add_sub_cancel, kept, slot]
    refine ⟨t, ?_, spRestored, pcRestored, ?_⟩
    · rw [callsAndReturns_cons, execAll_cons calls, execAll_append _ runs, execAll_cons returns]
      rfl
    · have first : UnchangedExcept (.pc :: .sp :: slotsFrom s.sp.val) s c :=
        callFrame.mono (by simp [slot_mem_slotsFrom])
      have inner : UnchangedExcept (.pc :: .sp :: slotsFrom s.sp.val) c m := innerFrame.mono fun p hp =>
        List.mem_cons_of_mem _ (List.mem_cons_of_mem _ (slotsFrom_subset (by omega) hp))
      have last : UnchangedExcept (.pc :: .sp :: slotsFrom s.sp.val) m t := retFrame.mono (by simp)
      exact (((first.trans inner).trans last).of_cons pcRestored).of_cons spRestored

/-- Settles O32: the nest leaves an empty stack empty, on which one return more underflows. -/
theorem balancedCallsAndReturnsAreDepthNeutral : Obligations.BalancedCallsAndReturnsAreDepthNeutral := by
  intro targets s fits
  obtain ⟨t, runs, sp, pc, frame⟩ := execAll_callsAndReturns targets s fits
  refine ⟨t, runs, sp, pc, frame, fun empty => ?_⟩
  have tEmpty : t.sp.val = 0 := by rw [sp, empty]
  obtain ⟨u, returns, fault, retFrame⟩ := (returnPopsTheReturnAddress t).2 tEmpty
  exact ⟨u, returns, fault, by rw [retFrame.sp (by simp), tEmpty]⟩

end Sys2Proof.Machine
end

section
/-! PROOFS. `SUB`, `SUBN`, `SHR`, `SHL` on `VF` itself (41_load_alu.md R131). -/

namespace Sys2Proof.Machine

/-- Under `flagWins` the flag is the write that remains. -/
theorem exec_flagWins {i : Instr} {s : State} {result flag : Byte} {f : Nat}
    (writes : exec i s = .next (s.setResultFlagByPolicy 15 result flag)) (flagWins : s.config.vfDestPolicy = .flagWins)
    (hf : flag.toNat = f) : ∃ t, exec i s = .next t ∧ UnchangedExcept [.reg 15] s t ∧ (t.reg 15).toNat = f := by
  rw [setResultFlagByPolicy_of_flagWins flagWins] at writes
  obtain ⟨t, goesOn, _, value, frame⟩ := exec_resultFlag writes rfl hf
  exact ⟨t, goesOn, frame.mono (by simp), value⟩

/-- Settles O40: each of the four writes its result and then its flag. -/
theorem flagWinsWhenVFIsTheDestination : Obligations.FlagWinsWhenVFIsTheDestination := fun y s flagWins =>
  ⟨exec_flagWins (exec_subVy 15 y s) flagWins (noBorrowFlag_toNat _ _),
    exec_flagWins (exec_subnVy 15 y s) flagWins (noBorrowFlag_toNat _ _),
    exec_flagWins (exec_shr 15 s) flagWins (shiftRightFlag_toNat _),
    exec_flagWins (exec_shl 15 s) flagWins (shiftLeftFlag_toNat _)⟩

theorem setResultFlagByPolicy_regF (s : State) (result flag : Byte) :
    (s.setResultFlagByPolicy 15 result flag).reg 15 = result ∨
      (s.setResultFlagByPolicy 15 result flag).reg 15 = flag := by
  obtain e | ⟨_, _, e | e⟩ := setResultFlagByPolicy_cases s 15 result flag <;> rw [e]
  · exact .inr (setResultFlag_regF s 15 result flag)
  · exact .inr (setReg_reg_self _ _ _)
  · exact .inl (setReg_reg_self _ _ _)

/-- Under any policy one of the two writes remains. -/
theorem exec_oneOfTwoWrites {i : Instr} {s : State} {result flag : Byte} {f : Nat}
    (writes : exec i s = .next (s.setResultFlagByPolicy 15 result flag)) (hf : flag.toNat = f) :
    ∃ t, exec i s = .next t ∧ UnchangedExcept [.reg 15, .freeDraws] s t ∧
      (t.reg 15 = result ∨ (t.reg 15).toNat = f) :=
  ⟨_, writes, (unchanged_setResultFlagByPolicy s 15 result flag).mono (by simp),
    (setResultFlagByPolicy_regF s result flag).imp_right fun e => by rw [e, hf]⟩

/-- Settles O41: each of the four leaves its result or its flag. -/
theorem unsettledPolicyKeepsOneOfTheTwoWrites : Obligations.UnsettledPolicyKeepsOneOfTheTwoWrites := fun y s _ =>
  ⟨exec_oneOfTwoWrites (exec_subVy 15 y s) (noBorrowFlag_toNat _ _),
    exec_oneOfTwoWrites (exec_subnVy 15 y s) (noBorrowFlag_toNat _ _),
    exec_oneOfTwoWrites (exec_shr 15 s) (shiftRightFlag_toNat _),
    exec_oneOfTwoWrites (exec_shl 15 s) (shiftLeftFlag_toNat _)⟩

end Sys2Proof.Machine
end

section
/-! PROOFS. `index` and the transfers between registers and memory (42_index_memory.md R141 to R147). -/

namespace Sys2Proof.Machine

/-! ## Index -/

theorem indexOverflowFlag_toNat (i : Word) (b : Byte) :
    (indexOverflowFlag i b).toNat = if 0xFFF < i.toNat + b.toNat then 1 else 0 := by
  simp only [indexOverflowFlag, flagByte_toNat, decide_eq_true_eq]

/-- Settles O43: the quirk adds one write, of the flag. -/
theorem addToIndexWrapsUnderBothQuirkValues : Obligations.AddToIndexWrapsUnderBothQuirkValues := by
  intro x s
  cases quirk : s.config.quirkAddiVF
  case false =>
    refine ⟨_, exec_addI_of_no_quirk quirk x, addrAdd_toNat _ _, fun _ => unchanged_setIndex s _, fun on => ?_⟩
    cases on
  case true =>
    refine ⟨_, exec_addI_of_quirk quirk x, addrAdd_toNat _ _, fun off => ?_, fun _ => ⟨?frame, ?flag⟩⟩
    · cases off
    case frame => exact ((unchanged_setIndex s _).mono (by simp)).trans ((unchanged_setReg _ _ _).mono (by simp))
    case flag => rw [setReg_reg_self, indexOverflowFlag_toNat]

/-! ## The four unlisted instructions -/

theorem ifAdmitted_of_admits {s : State} (admits : s.config.admitUnlisted4 = true) (t : State) :
    ifAdmitted s t = .next t := if_pos admits

theorem ifAdmitted_of_refuses {s : State} (refuses : s.config.admitUnlisted4 = false) (t : State) :
    ifAdmitted s t = .refused .unlistedNotAdmitted := by
  rw [ifAdmitted, refuses]
  rfl

/-- Settles O49: each of the four asks for admission first. -/
theorem unlistedInstructionsAreRefusedWhenNotAdmitted : Obligations.UnlistedInstructionsAreRefusedWhenNotAdmitted :=
  fun _ _ refuses => ⟨ifAdmitted_of_refuses refuses _, ifAdmitted_of_refuses refuses _,
    ifAdmitted_of_refuses refuses _, ifAdmitted_of_refuses refuses _⟩

theorem glyphAddr_toNat (c : Config) (b : Byte) : (glyphAddr c b).toNat = (c.fontBase + 5 * b.toNat) % 4096 := by
  simp only [glyphAddr, BitVec.toNat_ofNat]
  omega

/-- Settles O44: the one write of `index` stores the glyph address. -/
theorem glyphAddressIsFiveBytesPerDigit : Obligations.GlyphAddressIsFiveBytesPerDigit := fun _ s admits =>
  ⟨_, ifAdmitted_of_admits admits _, glyphAddr_toNat _ _, unchanged_setIndex s _⟩

/-! ## Decimal digits -/

theorem decimalDigits_length (b : Byte) : (decimalDigits b).length = 3 := rfl

theorem decimalDigits_toNat (b : Byte) :
    (decimalDigits b).map BitVec.toNat = [b.toNat / 100, b.toNat / 10 % 10, b.toNat % 10] := by
  have := b.isLt
  simp only [decimalDigits, List.map_cons, List.map_nil, BitVec.toNat_ofNat, List.cons.injEq, and_true]
  omega

/-- Settles O45: the three digits are a run of writes at `index`, which reads back. -/
theorem decimalConversionStoresThreeDigits : Obligations.DecimalConversionStoresThreeDigits := by
  intro x s admits
  have runs : exec (.ldB x) s = .next (s.memWriteAll s.index 0 (decimalDigits (s.reg x))) :=
    ifAdmitted_of_admits admits _
  refine ⟨_, runs, exec_touches runs, fun wf => ?digits⟩
  case digits =>
    have digit (j : Nat) (hj : j < 3) :
        (s.memWriteAll s.index 0 (decimalDigits (s.reg x))).byteAt (memAddr s.index j) =
          (decimalDigits (s.reg x))[j] := by
      have stored := memWriteAll_byteAt wf s.index 0 (decimalDigits (s.reg x)) j hj
        (by rw [decimalDigits_length]; omega)
      rwa [Nat.zero_add] at stored
    have values := decimalDigits_toNat (s.reg x)
    rw [digit 0 (by omega), digit 1 (by omega), digit 2 (by omega)]
    simpa [decimalDigits] using values

/-! ## Blocks of registers -/

theorem bumpIndex_byteAt (s : State) (x : RegNo) (a : Nat) : (s.bumpIndex x).byteAt a = s.byteAt a := by
  rw [bumpIndex_eq]
  rfl

theorem bumpIndex_reg (s : State) (x r : RegNo) : (s.bumpIndex x).reg r = s.reg r := by
  rw [bumpIndex_eq]
  rfl

theorem bumpIndex_index_toNat {s : State} (moves : s.config.loadStoreIncI = true) (x : RegNo) :
    (s.bumpIndex x).index.toNat = (s.index.toNat + x.val + 1) % 4096 := by
  rw [bumpIndex_eq, if_pos moves, addrAdd_toNat, Nat.add_assoc]

/-- The state after `V0` .. `Vx` are stored at `index`. -/
def State.stored (s : State) (x : RegNo) : State := (s.memWriteAll s.index 0 ((regsUpTo x).map s.reg)).bumpIndex x

/-- The state after `V0` .. `Vx` are loaded from `index`. -/
def State.loaded (s : State) (x : RegNo) : State := (s.loadEach s.index (regsUpTo x)).bumpIndex x

theorem exec_storeRegs {s : State} (admits : s.config.admitUnlisted4 = true) (x : RegNo) :
    exec (.storeRegs x) s = .next (s.stored x) := ifAdmitted_of_admits admits _

theorem exec_loadRegs {s : State} (admits : s.config.admitUnlisted4 = true) (x : RegNo) :
    exec (.loadRegs x) s = .next (s.loaded x) := ifAdmitted_of_admits admits _

/-- A store changes nothing but memory and `index`. -/
theorem stored_eq (s : State) (x : RegNo) :
    s.stored x = { s with mem := (s.stored x).mem, index := (s.stored x).index } := by
  rw [State.stored, bumpIndex_eq, memWriteAll_eq]

theorem getElem_regsUpTo {x r : RegNo} (h : r.val < (regsUpTo x).length) : (regsUpTo x)[r.val] = r :=
  Fin.ext (regsUpTo_getElem x r.val h)

/-- Each stored register stands at its own address. -/
theorem stored_byteAt {s : State} (wf : Memory.wf s.config s.mem = true) {x r : RegNo} (h : r ≤ x) :
    (s.stored x).byteAt (memAddr s.index r.val) = s.reg r := by
  have inList : r.val < (regsUpTo x).length := by
    rw [regsUpTo_length]
    exact Nat.lt_succ_of_le h
  have written := memWriteAll_byteAt wf s.index 0 ((regsUpTo x).map s.reg) r.val (by rwa [List.length_map])
    (by rw [List.length_map, regsUpTo_length]; omega)
  rw [Nat.zero_add, List.getElem_map, getElem_regsUpTo inList] at written
  rw [State.stored, bumpIndex_byteAt, written]

theorem loaded_reg (s : State) (x r : RegNo) :
    (s.loaded x).reg r = if r ≤ x then s.byteAt (memAddr s.index r.val) else s.reg r := by
  simp only [State.loaded, bumpIndex_reg, loadEach_reg, mem_regsUpTo]
  rfl

theorem stored_index_toNat {s : State} (moves : s.config.loadStoreIncI = true) (x : RegNo) :
    (s.stored x).index.toNat = (s.index.toNat + x.val + 1) % 4096 := by
  have index := bumpIndex_index_toNat (s := s.memWriteAll s.index 0 ((regsUpTo x).map s.reg))
    (by rwa [memWriteAll_config]) x
  rw [memWriteAll_eq] at index
  rw [State.stored, memWriteAll_eq]
  exact index

theorem loaded_index_toNat {s : State} (moves : s.config.loadStoreIncI = true) (x : RegNo) :
    (s.loaded x).index.toNat = (s.index.toNat + x.val + 1) % 4096 := by
  rw [State.loaded, loadEach_eq]
  exact bumpIndex_index_toNat (s := { s with v := (s.loadEach s.index (regsUpTo x)).v }) moves x

/-- Settles O46: the stored registers are a run of writes at `index`, which reads back, and what else the store
touches is `index` under the parameter. -/
theorem storeRegistersWritesAscendingBytes : Obligations.StoreRegistersWritesAscendingBytes := by
  intro x s admits stored
  have runs := exec_storeRegs admits x
  have frame := exec_touches runs
  simp only [touches] at frame
  refine ⟨_, runs, fun wf r => stored_byteAt wf, fun stays => ?stays,
    fun moves => ⟨?moves, stored_index_toNat moves x⟩⟩
  case stays => simpa [stays] using frame
  case moves => simpa [moves] using frame

/-- Settles O47: each loaded register holds its own byte, and what else the load touches is `index` under the
parameter. -/
theorem loadRegistersReadsAscendingBytes : Obligations.LoadRegistersReadsAscendingBytes := by
  intro x s admits
  have runs := exec_loadRegs admits x
  have frame := exec_touches runs
  simp only [touches] at frame
  refine ⟨_, runs, fun r hr => ?byte, fun stays => ?stays, fun moves => ⟨?moves, loaded_index_toNat moves x⟩⟩
  case byte => rw [loaded_reg, if_pos hr]
  case stays => simpa [stays] using frame
  case moves => simpa [moves] using frame

/-- Settles O48: the load reads each byte at the address the store wrote it to. -/
theorem storedRegistersLoadBack : Obligations.StoredRegistersLoadBack := by
  intro x s v admits wf
  have config : (s.stored x).config = s.config := by rw [stored_eq]
  refine ⟨_, _, exec_storeRegs admits x, exec_loadRegs (by rwa [config]) x, fun r hr => ?back,
    fun r hr => ?above⟩
  case back =>
    rw [loaded_reg, if_pos hr]
    exact stored_byteAt wf hr
  case above =>
    rw [loaded_reg, if_neg (not_le.mpr hr)]
    rfl

/-- Settles O25: `V0` and `V1` are the first two bytes of the run of writes, and `pc` still stands there. -/
theorem storeIsSeenByTheNextFetch : Obligations.StoreIsSeenByTheNextFetch := by
  intro x s inv admits two atNext
  refine ⟨_, exec_storeRegs admits x, ?_⟩
  have pc : (s.stored x).pc = s.index := by rw [stored_eq, atNext]
  have high := stored_byteAt inv.mem_wf (Fin.zero_le x)
  have low := stored_byteAt inv.mem_wf two
  rw [← high, ← low, State.fetchWord, pc]
  rfl

end Sys2Proof.Machine
end

section
/-! PROOFS. The rest of the state after reset (10_state.md R38). -/

namespace Sys2Proof.Machine

theorem resetWith_reg (seed : Nat) (supplied : List Byte) (c : Config) (x : RegNo) :
    (State.resetWith seed supplied c).reg x = 0 := Vector.getElem_replicate _

theorem resetWith_slot (seed : Nat) (supplied : List Byte) (c : Config) (k : Fin 16) :
    (State.resetWith seed supplied c).stack[k] = 0 := Vector.getElem_replicate _

theorem resetWith_keyDown (seed : Nat) (supplied : List Byte) (c : Config) (k : KeyNo) :
    (State.resetWith seed supplied c).keyDown k = false := Vector.getElem_replicate _

/-- Settles O16: every vector is filled with its zero, every other field holds it. -/
theorem resetZeroesTheRest : Obligations.ResetZeroesTheRest := fun seed supplied c =>
  ⟨resetWith_reg seed supplied c, rfl, rfl, resetWith_slot seed supplied c, rfl, rfl,
    resetWith_keyDown seed supplied c, pixel_dark, rfl, rfl, rfl⟩

end Sys2Proof.Machine
end

section
/-! PROOFS. Drawing (43_display.md R151, R152). -/

namespace Sys2Proof.Machine

/-- The pixels of the model's list are the ones under a set bit. -/
theorem spriteCovers_iff (s : State) (vx vy : Byte) (n : Nat) (px : Fin 64) (py : Fin 32) :
    s.SpriteCovers vx vy n px py ↔ (px, py) ∈ s.spriteTargets vx vy n := by
  simp only [mem_spriteTargets, State.SpriteCovers, pixelColumn, pixelRow, Fin.ext_iff]
  rfl

/-- The state after a draw. -/
def State.drawn (s : State) (x y : RegNo) (n : Fin 16) : State :=
  (s.setVideo (s.drawing x y n).video).setReg regF (collisionFlag (s.drawing x y n))

theorem exec_drw_drawn (x y : RegNo) (n : Fin 16) (s : State) : exec (.drw x y n) s = .next (s.drawn x y n) := rfl

section
variable (s : State) (x y : RegNo) (n : Fin 16) (px : Fin 64) (py : Fin 32)

theorem drawn_pixel_of_covered (covered : s.SpriteCovers (s.reg x) (s.reg y) n.val px py) :
    Video.pixel (s.drawn x y n).video px py = !(Video.pixel s.video px py) :=
  (drawing_pixel s x y n px py).trans (if_pos ((spriteCovers_iff ..).mp covered))

theorem drawn_pixel_of_not_covered (free : ¬ s.SpriteCovers (s.reg x) (s.reg y) n.val px py) :
    Video.pixel (s.drawn x y n).video px py = Video.pixel s.video px py :=
  (drawing_pixel s x y n px py).trans (if_neg (mt (spriteCovers_iff ..).mpr free))

/-- A pixel changes exactly under a set bit. -/
theorem drawn_pixel_ne_iff : Video.pixel (s.drawn x y n).video px py ≠ Video.pixel s.video px py ↔
    s.SpriteCovers (s.reg x) (s.reg y) n.val px py := by
  by_cases covered : s.SpriteCovers (s.reg x) (s.reg y) n.val px py
  · simp [drawn_pixel_of_covered s x y n px py covered, covered]
  · simp [drawn_pixel_of_not_covered s x y n px py covered, covered]

theorem drawn_flag : (s.drawn x y n).reg 15 = flagByte (s.drawing x y n).hit := setReg_reg_self _ _ _

theorem drawing_hit_iff : (s.drawing x y n).hit = true ↔
    ∃ px py, s.SpriteCovers (s.reg x) (s.reg y) n.val px py ∧ Video.pixel s.video px py = true := by
  simp only [drawing_hit, Prod.exists, spriteCovers_iff]

theorem unchanged_drawn : UnchangedExcept [.video, .reg 15] s (s.drawn x y n) :=
  exec_touches (exec_drw_drawn x y n s)

end

theorem flagByte_eq_one_iff (c : Bool) : flagByte c = 1 ↔ c = true := by
  cases c <;> decide

/-- Settles O51: the covered pixels are the list the draw inverts, each of them once. -/
theorem drawInvertsExactlyTheCoveredPixels : Obligations.DrawInvertsExactlyTheCoveredPixels := fun x y n s =>
  ⟨s.drawn x y n, exec_drw_drawn x y n s, drawn_pixel_of_covered s x y n, drawn_pixel_of_not_covered s x y n,
    drawn_flag s x y n ▸ flagByte_eq_zero_or_one _,
    by rw [drawn_flag, flagByte_eq_one_iff, drawing_hit_iff], unchanged_drawn s x y n⟩

/-- The flag of a draw, from the pixels it changed: a covered pixel that was on is one that the draw turned off. -/
theorem drawn_flag_eq (s : State) (x y : RegNo) (n : Fin 16) {P : Prop} [Decidable P]
    (h : (∃ px py, s.SpriteCovers (s.reg x) (s.reg y) n.val px py ∧ Video.pixel s.video px py = true) ↔ P) :
    (s.drawn x y n).reg 15 = if P then 1 else 0 := by
  have hit : (s.drawing x y n).hit = decide P := by
    rw [Bool.eq_iff_iff, decide_eq_true_iff, ← h, drawing_hit_iff]
  rw [drawn_flag, hit, flagByte]
  simp only [decide_eq_true_eq]

/-- The coverage of a sprite depends on the sprite bytes, the position and `index` alone. -/
theorem spriteCovers_drawn (s : State) (x y p q : RegNo) (n : Fin 16) (hp : (s.drawn x y n).reg p = s.reg x)
    (hq : (s.drawn x y n).reg q = s.reg y) (px : Fin 64) (py : Fin 32) :
    (s.drawn x y n).SpriteCovers ((s.drawn x y n).reg p) ((s.drawn x y n).reg q) n.val px py ↔
      s.SpriteCovers (s.reg x) (s.reg y) n.val px py := by
  rw [hp, hq]
  rfl

/-- Settles O52: both draws invert the same pixels, and each flag tells of the covered pixels that were on before it. -/
theorem doubleDrawRestoresTheFramebuffer : Obligations.DoubleDrawRestoresTheFramebuffer := by
  intro x y p q n s
  refine ⟨s.drawn x y n, exec_drw_drawn x y n s, drawn_flag_eq s x y n ?first, fun hp hq =>
    ⟨_, exec_drw_drawn p q n _, Video.ext fun px py => ?restored, drawn_flag_eq _ p q n ?second⟩⟩
  case first => simp only [drawn_pixel_ne_iff]
  case restored =>
    by_cases covered : s.SpriteCovers (s.reg x) (s.reg y) n.val px py
    · rw [drawn_pixel_of_covered _ p q n px py ((spriteCovers_drawn s x y p q n hp hq px py).mpr covered),
        drawn_pixel_of_covered s x y n px py covered, Bool.not_not]
    · rw [drawn_pixel_of_not_covered _ p q n px py (mt (spriteCovers_drawn s x y p q n hp hq px py).mp covered),
        drawn_pixel_of_not_covered s x y n px py covered]
  case second =>
    simp only [spriteCovers_drawn s x y p q n hp hq, drawn_pixel_ne_iff]
    refine exists_congr fun px => exists_congr fun py => and_congr_right fun covered => ?_
    rw [drawn_pixel_of_covered s x y n px py covered, Bool.not_eq_true']

end Sys2Proof.Machine
end

section
/-! PROOFS. Wait-for-key with a key down, random numbers, and the host's own moves (44_keypad_timers_entropy.md R163,
R166, 60_exceptions.md R193, R199). -/

namespace Sys2Proof.Machine

/-! ## Wait-for-key -/

theorem exec_ldVxK_of_pressed {s : State} {k : KeyNo} {ks : List KeyNo} (pressed : s.pressedKeys = k :: ks)
    (x : RegNo) : exec (.ldVxK x) s = .next (s.reportKey x k ks) := by
  simp only [exec, execLdVxK, pressed]

theorem keyByte_toNat (k : KeyNo) : (BitVec.ofNat 8 k.val : Byte).toNat = k.val := by
  rw [BitVec.toNat_ofNat]
  omega

theorem exists_pressedKeys_cons {s : State} {k : KeyNo} (down : s.keyDown k = true) :
    ∃ j js, s.pressedKeys = j :: js :=
  List.exists_cons_of_ne_nil (List.ne_nil_of_mem ((mem_pressedKeys s k).mpr down))

/-- A pressed key below which none is pressed heads the list of pressed keys. -/
theorem pressedKeys_head_eq {s : State} {k j : KeyNo} {js : List KeyNo} (pressed : s.pressedKeys = j :: js)
    (down : s.keyDown k = true) (least : ∀ i < k, s.keyDown i = false) : j = k := by
  have jDown : s.keyDown j = true := (mem_pressedKeys s j).mp (pressed ▸ List.mem_cons_self)
  refine le_antisymm (pressedKeys_head_le pressed k down) (not_lt.mp fun below => ?_)
  rw [least j below] at jDown
  cases jDown

/-- Settles O54: the head of the pressed keys is the least of them, and the default mode reports the head. -/
theorem waitForKeyStoresTheSmallestPressedKey : Obligations.WaitForKeyStoresTheSmallestPressedKey := by
  intro x k s lowest down least
  obtain ⟨j, js, pressed⟩ := exists_pressedKeys_cons down
  obtain rfl := pressedKeys_head_eq pressed down least
  have runs := exec_ldVxK_of_pressed pressed x
  obtain ⟨_, e⟩ | ⟨any, _⟩ := reportKey_cases x pressed
  · rw [e] at runs
    exact ⟨_, runs, by rw [setReg_reg_self, keyByte_toNat], unchanged_setReg s x _⟩
  · rw [lowest] at any
    cases any

/-- Settles O55: the conservative mode reports a pressed key and counts one free choice. -/
theorem waitForKeyStoresSomePressedKey : Obligations.WaitForKeyStoresSomePressedKey := by
  intro x s any ⟨k, down⟩
  obtain ⟨j, js, pressed⟩ := exists_pressedKeys_cons down
  have runs := exec_ldVxK_of_pressed pressed x
  obtain ⟨lowest, _⟩ | ⟨_, r, rDown, e⟩ := reportKey_cases x pressed
  · rw [any] at lowest
    cases lowest
  · rw [e] at runs
    exact ⟨_, r, runs, rDown, by rw [setReg_reg_self, keyByte_toNat],
      ((unchanged_freeChoice s).mono (by simp)).trans ((unchanged_setReg _ x _).mono (by simp))⟩

/-- Settles O56: the rewind is the one write. -/
theorem waitForKeyRewindsWithNoKeyDown : Obligations.WaitForKeyRewindsWithNoKeyDown := fun x s noKey =>
  ⟨_, exec_ldVxK_of_no_key noKey x, addrBack2_toNat _, unchanged_setPc s _⟩

/-! ## Random numbers -/

theorem exec_rnd (x : RegNo) (kk : Byte) (s : State) : exec (.rnd x kk) s =
    .next ((s.setEntropy s.entropy.advance).setReg x (s.entropy.nextByte &&& kk)) := rfl

theorem nextByte_of_supplied {e : Entropy} {b : Byte} {rest : List Byte} (h : e.supplied = b :: rest) :
    e.nextByte = b ∧ e.advance.supplied = rest := by
  simp [Entropy.nextByte, Entropy.advance, h]

/-- A mask leaves no bit outside it. -/
theorem and_and_not_self (r kk : Byte) : r &&& kk &&& ~~~kk = 0 := by
  rw [BitVec.and_assoc, BitVec.and_not_self]
  exact BitVec.and_zero

/-- Settles O58: the drawn byte is the next of the source, which moves on by one draw. -/
theorem randomAndsOneDraw : Obligations.RandomAndsOneDraw := by
  intro x kk s
  refine ⟨_, s.entropy.nextByte, exec_rnd x kk s, setReg_reg_self _ x _, ?masked, rfl, rfl,
    fun b rest supplied => nextByte_of_supplied supplied, ?frame⟩
  case masked => rw [setReg_reg_self, and_and_not_self]
  case frame => exact ((unchanged_setEntropy s _).mono (by simp)).trans ((unchanged_setReg _ x _).mono (by simp))

/-! ## Tick and SetKey -/

theorem countDown_toNat (b : Byte) : (countDown b).toNat = b.toNat - 1 := by
  unfold countDown
  split
  · next zero => rw [zero]; rfl
  · next nonzero =>
    have positive : b.toNat ≠ 0 := fun h => nonzero (BitVec.eq_of_toNat_eq h)
    have := b.isLt
    rw [byte_sub_toNat]
    show (b.toNat + 256 - 1) % 256 = b.toNat - 1
    omega

/-- Settles O59: a tick is one write of each timer, a key change one write of the keypad. -/
theorem tickAndSetKeyChangeOnlyTheirOwnState : Obligations.TickAndSetKeyChangeOnlyTheirOwnState := fun k b s =>
  ⟨⟨s.tick, rfl, countDown_toNat _, countDown_toNat _,
      ((unchanged_setDelay s _).mono (by simp)).trans ((unchanged_setSound _ _).mono (by simp))⟩,
    ⟨s.setKey k b, rfl, setKey_keyDown_self s k b, fun _ other => setKey_keyDown_ne s other.symm b,
      unchanged_setKey s k b⟩⟩

end Sys2Proof.Machine
end
